-- ==== Sys2Proof/Word.lean ====
section
/-! DEFINITION. The machine's plainest data: bytes, 32-bit words, four-byte columns, sixteen-byte blocks, the key schedule,
and the records the block's interfaces carry (00_scope.md R10, R14; 42_key_expansion.md R470; 30_encoding.md R300). -/

namespace Sys2Proof

/-- A byte: 8 bits, unsigned (R10, R12). -/
abbrev Byte := BitVec 8

/-- A 32-bit register word (R10). -/
abbrev Word := BitVec 32

/-- A four-byte word `[b0, b1, b2, b3]`, byte 0 first: one column of the state matrix, row 0 first (R470, R207). -/
structure Col where
  b0 : Byte
  b1 : Byte
  b2 : Byte
  b3 : Byte
  deriving DecidableEq, Repr, Inhabited

/-- A block: 16 bytes in four columns, column-major: byte `k` is row `k mod 4` of column `k div 4` (R14, R207). -/
structure Block where
  c0 : Col
  c1 : Col
  c2 : Col
  c3 : Col
  deriving DecidableEq, Repr, Inhabited

/-- Four zero bytes. -/
def Col.zero : Col := ⟨0, 0, 0, 0⟩

/-- Sixteen zero bytes. -/
def Block.zero : Block := ⟨Col.zero, Col.zero, Col.zero, Col.zero⟩

/-- The round-key schedule: 11 round keys of 16 bytes, 176 bytes in all (10_state.md R120). -/
abbrev Schedule := Vector Block 11

/-- The width of a host access: 8, 16 or 32 bits (20_memory.md R203). -/
inductive AccessSize where
  | byte
  | half
  | word
  deriving DecidableEq, Repr, Inhabited

/-- What the outside of the block, or its scheduler, does next: one host access, one event word, one choice of a consumer to
step, or the reset input (R100, R213, R220, R800). It is the record an interface carries, before any decoding. -/
inductive Stimulus where
  /-- a host bus write of `value` at byte offset `offset` of the window -/
  | hostWrite (size : AccessSize) (offset : BitVec 10) (value : Word)
  /-- a host bus read at byte offset `offset` of the window -/
  | hostRead (size : AccessSize) (offset : BitVec 10)
  /-- an event word on the environment's event port -/
  | event (word : BitVec 16)
  /-- the scheduler lets the consumer of channel `ch` take its step -/
  | consumer (ch : BitVec 4)
  /-- the platform asserts the reset input -/
  | resetInput
  deriving DecidableEq, Repr, Inhabited

end Sys2Proof
end

