-- ==== Sys2Proof/Config.lean ====
section
/-! DEFINITION. What an implementation fixes, and the free values (00_scope.md R8). NUM_CHANNELS and QUEUE_DEPTH are held in
State, so that a statement about every state covers every value of them; the numbers here are the ones `State.reset` has. -/

namespace Sys2Proof

/-- MAX_MSG: 128 bytes (R8). -/
def Config.maxMsg : Nat := 128

/-- NUM_CHANNELS at `State.reset`. DESIGN CHOICE: R8 leaves it OPEN (1..16); 2 is the value of the spec's examples. Unsafe where
a claim is about `State.reset` alone (log entry 1). -/
def Config.numChannels : Nat := 2

/-- QUEUE_DEPTH at `State.reset`. DESIGN CHOICE: R8 leaves it OPEN (1..255); 2 is the value of the spec's test vectors. Unsafe
where a claim is about `State.reset` alone (log entry 1). -/
def Config.queueDepth : Nat := 2

/-- CNT_MAX, IDLE_MAX: the saturation value 0xFFFF of the 16-bit counters (R8). -/
def Config.cntMax : Nat := 0xFFFF

/-- MBUF_INIT and CBUF_INIT: what the byte at a window offset holds after the `n`-th reset. R8, R117 and R118 call it a draw:
a free value (log entry 4), safe. -/
opaque Config.bufInit : Nat → Nat → Byte

/-- The `n`-th stimulus past the end of State's list of pending ones: which agent acts next, and with what, is open (R220,
R609): a free value (log entry 3), safe. -/
opaque Config.freeStimulus : Nat → Stimulus

/-- TICK_PERIOD: the real time of one TICK; OPEN, and no rule reads it (R8, R714). -/
opaque Config.tickPeriod : Nat

/-- BASE: where the window sits in the system's address map; OPEN, and no rule reads it (R200). -/
opaque Config.base : Nat

end Sys2Proof
end

