-- ==== Sys2Proof/Syntax.lean ====
section
/-! DEFINITION. The instructions: one constructor per row of spec/opcode_table.json (30_encoding.md R302, R307, R310). -/

namespace Sys2Proof

/-- One step of one agent: a host command, an environment event, a consumer step, a host access or the reset. -/
inductive Instr where
  /-- NOP, command word 0x00000000 (R404) -/
  | nop
  /-- KEY_EXPAND, command word 0x00000001 (R475) -/
  | keyExpand
  /-- ENC_BLK, command word 0x00000002 (R510) -/
  | encBlk
  /-- DEC_BLK, command word 0x00000003 (R511) -/
  | decBlk
  /-- PAD_ENC, command word 0x00000004 (R552) -/
  | padEnc
  /-- DEC_UNPAD, command word 0x00000005 (R554) -/
  | decUnpad
  /-- REINIT, command word 0x00000006 (R476) -/
  | reinit
  /-- CLR_CNT ch, command word 0x00000007 + 0x10*ch (R405) -/
  | clrCnt (ch : BitVec 4)
  /-- BADCMD: the invalid command word `w` (R304, R401) -/
  | badCmd (w : Word)
  /-- RX_BYTE(ch, b), event word 0x1000 + 0x100*ch + b (R602) -/
  | rxByte (ch : BitVec 4) (b : Byte)
  /-- TICK, event word 0x2000 (R603) -/
  | tick
  /-- TX_DONE(ch, fail), event word 0x3000 + 0x100*ch + fail (R608) -/
  | txDone (ch : BitVec 4) (fail : Bool)
  /-- EV_RESERVED: the event word `e` that is no RX_BYTE, TICK or TX_DONE (R308) -/
  | evReserved (e : BitVec 16)
  /-- WORKER_POP(ch): the consumer step of channel `ch`, not encoded (R607, R310) -/
  | workerPop (ch : BitVec 4)
  /-- HOST_WR: a host write of `v` at offset `off` (R201) -/
  | hostWr (size : AccessSize) (off : BitVec 10) (v : Word)
  /-- HOST_RD: a host read at offset `off` (R201) -/
  | hostRd (size : AccessSize) (off : BitVec 10)
  /-- RESET: the reset input (R800) -/
  | reset
  deriving DecidableEq, Repr, Inhabited

end Sys2Proof
end

