-- ==== Sys2Proof/WellFormed.lean ====
section
/-! DEFINITION. Which instructions stand for something the block with `nch` channels can meet (30_encoding.md R303, R304, R307,
R308): the checks are written from those rules, not from the decoder. -/

namespace Sys2Proof

/-- R304: when a command word is invalid in a block of `nch` channels. -/
def cmdInvalid (nch : Nat) (w : Word) : Bool :=
  let op := w.extractLsb' 0 4
  let ch := w.extractLsb' 4 4
  let res := w.extractLsb' 8 24
  res != 0 || decide (8 ≤ op.toNat) || (op != 7 && ch != 0) || (op == 7 && decide (nch ≤ ch.toNat))

/-- R308: when an event word is ignored by its form: a reserved kind, a TICK word with a nonzero field, a TX_DONE word with
DATA[7:1] nonzero. -/
def evIgnored (e : BitVec 16) : Bool :=
  let ev := e.extractLsb' 12 4
  let ch := e.extractLsb' 8 4
  let d := e.extractLsb' 0 8
  !(ev == 1 || (ev == 2 && ch == 0 && d == 0) || (ev == 3 && d.extractLsb' 1 7 == 0))

/-- Is the instruction well formed in a block of `nch` channels?
- CLR_CNT and WORKER_POP name an existing channel (R303, R310);
- BADCMD carries an invalid command word (R304), EV_RESERVED an ignored event word (R308);
- a host write is not the 32-bit write of CMD, which is the command itself (R400, log entry 9).
RX_BYTE and TX_DONE may name any channel (R307). -/
def Instr.wellFormed (nch : Nat) : Instr → Bool
  | .nop => true
  | .keyExpand => true
  | .encBlk => true
  | .decBlk => true
  | .padEnc => true
  | .decUnpad => true
  | .reinit => true
  | .clrCnt ch => decide (ch.toNat < nch)
  | .badCmd w => cmdInvalid nch w
  | .rxByte _ _ => true
  | .tick => true
  | .txDone _ _ => true
  | .evReserved e => evIgnored e
  | .workerPop ch => decide (ch.toNat < nch)
  | .hostWr size off _ => !(size == .word && off == 0)
  | .hostRd _ _ => true
  | .reset => true

end Sys2Proof
end

