-- ==== Sys2Proof/Decode.lean ====
section
/-! DEFINITION. Decoding of the two formats, command words and event words, total over all words (30_encoding.md R300 to R312),
of the stimuli that carry them, and after it the encoder written from the same tables (R301, R306). -/

namespace Sys2Proof

/-- A decoded command word: what a write of CMD executes (R302, R311). -/
inductive Command where
  | nop
  | keyExpand
  | encBlk
  | decBlk
  | padEnc
  | decUnpad
  | reinit
  | clrCnt (ch : BitVec 4)
  | badCmd (w : Word)
  deriving DecidableEq, Repr

/-- The instruction a command is. -/
def Command.toInstr : Command → Instr
  | .nop => .nop
  | .keyExpand => .keyExpand
  | .encBlk => .encBlk
  | .decBlk => .decBlk
  | .padEnc => .padEnc
  | .decUnpad => .decUnpad
  | .reinit => .reinit
  | .clrCnt ch => .clrCnt ch
  | .badCmd w => .badCmd w

/-- The fields of a command word, R301. -/
def cmdOp (w : Word) : BitVec 4 := w.extractLsb' 0 4
def cmdCh (w : Word) : BitVec 4 := w.extractLsb' 4 4
def cmdRes (w : Word) : BitVec 24 := w.extractLsb' 8 24

/-- decodeCmd (R311), in a block of `nch` channels. -/
def decodeCmd (nch : Nat) (w : Word) : Command :=
  if cmdRes w ≠ 0 then .badCmd w
  else if cmdOp w = 0x0 ∧ cmdCh w = 0 then .nop
  else if cmdOp w = 0x1 ∧ cmdCh w = 0 then .keyExpand
  else if cmdOp w = 0x2 ∧ cmdCh w = 0 then .encBlk
  else if cmdOp w = 0x3 ∧ cmdCh w = 0 then .decBlk
  else if cmdOp w = 0x4 ∧ cmdCh w = 0 then .padEnc
  else if cmdOp w = 0x5 ∧ cmdCh w = 0 then .decUnpad
  else if cmdOp w = 0x6 ∧ cmdCh w = 0 then .reinit
  else if cmdOp w = 0x7 ∧ (cmdCh w).toNat < nch then .clrCnt (cmdCh w)
  else .badCmd w

/-- The fields of an event word, R306. -/
def evKind (e : BitVec 16) : BitVec 4 := e.extractLsb' 12 4
def evCh (e : BitVec 16) : BitVec 4 := e.extractLsb' 8 4
def evData (e : BitVec 16) : Byte := e.extractLsb' 0 8

/-- decodeEv (R312). -/
def decodeEv (e : BitVec 16) : Instr :=
  if evKind e = 0x1 then .rxByte (evCh e) (evData e)
  else if evKind e = 0x2 ∧ evCh e = 0 ∧ evData e = 0 then .tick
  else if evKind e = 0x3 ∧ (evData e).extractLsb' 1 7 = 0 then .txDone (evCh e) ((evData e).getLsbD 0)
  else .evReserved e

/-- The instruction a stimulus is: the format is known from the interface it arrives on (R300). A 32-bit host write of CMD is
the command its value encodes (R400); every other host access is HOST_WR or HOST_RD. -/
def decodeStimulus (nch : Nat) : Stimulus → Instr
  | .hostWrite size off v => if size = .word ∧ off = 0 then (decodeCmd nch v).toInstr else .hostWr size off v
  | .hostRead size off => .hostRd size off
  | .event e => decodeEv e
  | .consumer ch => .workerPop ch
  | .resetInput => .reset

/-- The stimulus that carries the word `w` of `nbits` bits: a 32-bit word is written to CMD, a 16-bit word is delivered on the
event port (R300); no other width is a format. -/
def wordStimulus (nbits w : Nat) : Option Stimulus :=
  if nbits = 32 then some (.hostWrite .word 0 (BitVec.ofNat 32 w))
  else if nbits = 16 then some (.event (BitVec.ofNat 16 w))
  else none

/-- The instruction the decoder reads from a table row's word, in the block `State.reset` has. -/
def decodeTableWord (nbits w : Nat) : Option Instr :=
  (wordStimulus nbits w).map (decodeStimulus Config.numChannels)

/-- A command word from its fields (R301): `{RES = 0, CH, OP}`. -/
def cmdWord (op ch : BitVec 4) : Word := (0 : BitVec 24) ++ ch ++ op

/-- An event word from its fields (R306): `{EV, CH, DATA}`. -/
def evWord (ev ch : BitVec 4) (d : Byte) : BitVec 16 := ev ++ ch ++ d

/-- The encoder: the stimulus that carries an instruction (R302, R307, R310). -/
def encode : Instr → Stimulus
  | .nop => .hostWrite .word 0 (cmdWord 0x0 0)
  | .keyExpand => .hostWrite .word 0 (cmdWord 0x1 0)
  | .encBlk => .hostWrite .word 0 (cmdWord 0x2 0)
  | .decBlk => .hostWrite .word 0 (cmdWord 0x3 0)
  | .padEnc => .hostWrite .word 0 (cmdWord 0x4 0)
  | .decUnpad => .hostWrite .word 0 (cmdWord 0x5 0)
  | .reinit => .hostWrite .word 0 (cmdWord 0x6 0)
  | .clrCnt ch => .hostWrite .word 0 (cmdWord 0x7 ch)
  | .badCmd w => .hostWrite .word 0 w
  | .rxByte ch b => .event (evWord 0x1 ch b)
  | .tick => .event (evWord 0x2 0 0)
  | .txDone ch fail => .event (evWord 0x3 ch ((0 : BitVec 7) ++ BitVec.ofBool fail))
  | .evReserved e => .event e
  | .workerPop ch => .consumer ch
  | .hostWr size off v => .hostWrite size off v
  | .hostRd size off => .hostRead size off
  | .reset => .resetInput

end Sys2Proof
end

