-- ==== Sys2Proof/Machine/State.lean ====
section
/-! DEFINITION. The state of the block, every piece the spec gives it (10_state.md R100 to R130), as plain data; the reasons a step
can stop; and the state after reset (70_reset_and_hazards.md R801). -/

namespace Sys2Proof.Machine

/-- The result codes of `STATUS.ERR` that are ever written (60_exceptions.md R702). -/
inductive Err where
  | ok
  | badCmd
  | noKey
  | keyLock
  | bufOvf
  | badLen
  | invPad
  deriving DecidableEq, Repr, Inhabited

/-- CHCFG.ROLE (10_state.md R113): what the channel's consumer does with a frame. -/
inductive Role where
  | encrypt
  | decrypt
  deriving DecidableEq, Repr, Inhabited

/-- `S.w[ch]` (10_state.md R126): idle, or holding a result for the transmit port. -/
inductive Worker where
  | idle
  | hold (out : BitVec 4) (data : Block)
  deriving DecidableEq, Repr, Inhabited

/-- The state of one channel: its configuration register, framer, queue, consumer and counters. -/
structure Channel where
  /-- CHCFG.EN (R113) -/
  en : Bool
  /-- CHCFG.ROLE (R113) -/
  role : Role
  /-- CHCFG.OUT (R113) -/
  out : BitVec 4
  /-- `S.fbuf` (R123) -/
  fbuf : Block
  /-- `S.fidx` (R123) -/
  fidx : BitVec 5
  /-- `S.idle` (R124) -/
  idle : BitVec 16
  /-- `S.q` (R125), the head first -/
  q : List Block
  /-- `S.w` (R126) -/
  w : Worker
  /-- QDROP.COUNT (R115) -/
  qdrop : BitVec 16
  /-- TXFAIL.COUNT (R116) -/
  txfail : BitVec 16
  deriving DecidableEq, Repr, Inhabited

/-- What a host access answers: the bus error bit and the data read, 0 on a write and on a bus error (20_memory.md R202, R204).
It is the model's own record of an output of the block (log entry 7). -/
structure BusResp where
  error : Bool
  data : Word
  deriving DecidableEq, Repr, Inhabited

/-- The RAM-like bytes of the window, MBUF and CBUF, that something has written: window offset and byte, offsets rising. An
unlisted byte has no value here (`Memory.read` answers none); a rule that reads it takes the reset's draw (log entry 4). -/
abbrev Memory := List Host.Cell

/-- The state of the block. -/
structure State where
  /-- QUEUE_DEPTH, PARAM.QDEPTH (R8, R109); no step changes it -/
  queueDepth : Nat
  /-- the channels 0..NUM_CHANNELS-1; the length is NUM_CHANNELS, PARAM.NCH (R8, R109), and no step changes it -/
  chans : List Channel
  /-- STATUS.RKV (R105) -/
  rkv : Bool
  /-- STATUS.ERR (R105) -/
  err : Err
  /-- RESYNC.THRESH (R106) -/
  thresh : BitVec 16
  /-- MSGLEN.LEN (R107) -/
  msgLen : BitVec 8
  /-- CTLEN.LEN (R108) -/
  ctLen : BitVec 8
  /-- KEY0..KEY3 as their 16 bytes, KEYi being column i (R110, R206) -/
  key : Block
  /-- DIN0..DIN3 (R111, R206) -/
  din : Block
  /-- DOUT0..DOUT3 (R112, R206) -/
  dout : Block
  /-- `S.rks`, round key r at index r (R120) -/
  rks : Schedule
  /-- `S.key_latched` (R121) -/
  keyLatched : Block
  /-- MBUF (R117) and CBUF (R118) -/
  mem : Memory
  /-- the model's own: the answer to the most recent host access, none since reset (log entry 7) -/
  resp : Option BusResp
  /-- the model's own: what the agents do next, in order (log entry 3) -/
  pending : List Stimulus
  /-- the model's own: how many stimuli were drawn from `Config.freeStimulus` (log entry 3) -/
  clock : Nat
  /-- the model's own: how many resets there were, the index of the buffers' draw (log entry 4) -/
  resets : Nat
  deriving DecidableEq, Repr, Inhabited

/-- The reasons a step can fault: none. "no condition makes the block stop, jump, save state or change mode" (60_exceptions.md
R701); a failing command writes its code, a bad access answers a bus error, and the block goes on. -/
inductive Fault where
  deriving DecidableEq, Repr

/-- The reasons a step can be refused. -/
inductive Refusal where
  /-- An instruction with no meaning yet, rejected by name in `exec`'s arm; no arm is. Safe. -/
  | notModelled (mnemonic : String)
  /-- Raised by `step` alone, where the state's NUM_CHANNELS or QUEUE_DEPTH is out of R9's range: "a configuration violating
  these is refused by the model, not given a meaning". Safe. -/
  | badParameters
  deriving DecidableEq, Repr

/-- Channel `ch` after reset (R801): OUT = ch, everything else 0, empty or IDLE. S.fbuf is unspecified and unobservable there:
DESIGN CHOICE zero bytes (log entry 5). -/
def Channel.reset (ch : Nat) : Channel where
  en := false
  role := .encrypt
  out := BitVec.ofNat 4 ch
  fbuf := Block.zero
  fidx := 0
  idle := 0
  q := []
  w := .idle
  qdrop := 0
  txfail := 0

/-- The state after the `n`-th reset of a block with `nch` channels and queues of depth `depth` (R801), with the model's own
stimuli and their count as given. -/
def State.resetWith (nch depth n clock : Nat) (pending : List Stimulus) : State where
  queueDepth := depth
  chans := (List.range nch).map Channel.reset
  rkv := false
  err := .ok
  thresh := 10
  msgLen := 0
  ctLen := 0
  key := Block.zero
  din := Block.zero
  dout := Block.zero
  rks := Vector.replicate 11 Block.zero
  keyLatched := Block.zero
  mem := []
  resp := none
  pending := pending
  clock := clock
  resets := n

/-- The machine right after reset, with nothing pending. -/
def State.reset : State := State.resetWith Config.numChannels Config.queueDepth 0 0 []

end Sys2Proof.Machine
end

