-- ==== Sys2Proof/Machine/Bytes.lean ====
section
/-! DEFINITION. Byte and bit-field helpers: byte lanes of register words (20_memory.md R206), rows and columns of a block (R14, R207). -/

namespace Sys2Proof

/-- Byte lanes of a register word, R206: byte `j` is bits `[8j+7:8j]`. -/
def Col.ofWord (v : Word) : Col :=
  ⟨v.extractLsb' 0 8, v.extractLsb' 8 8, v.extractLsb' 16 8, v.extractLsb' 24 8⟩

/-- The register word of four bytes, R206: byte 0 is least significant. -/
def Col.toWord (c : Col) : Word := c.b3 ++ c.b2 ++ c.b1 ++ c.b0

/-- Bytewise exclusive-or of two four-byte words (R470). -/
def Col.xor (a b : Col) : Col := ⟨a.b0 ^^^ b.b0, a.b1 ^^^ b.b1, a.b2 ^^^ b.b2, a.b3 ^^^ b.b3⟩

/-- A function applied to each byte. -/
def Col.map (f : Byte → Byte) (c : Col) : Col := ⟨f c.b0, f c.b1, f c.b2, f c.b3⟩

/-- The byte in row `r` of a column. -/
def Col.row (c : Col) (r : Fin 4) : Byte :=
  match r with
  | 0 => c.b0
  | 1 => c.b1
  | 2 => c.b2
  | 3 => c.b3

/-- A column with the byte in row `r` replaced; no byte for `r` above 3. -/
def Col.set (c : Col) (r : Nat) (v : Byte) : Col :=
  match r with
  | 0 => { c with b0 := v }
  | 1 => { c with b1 := v }
  | 2 => { c with b2 := v }
  | 3 => { c with b3 := v }
  | _ => c

/-- The four bytes in order. -/
def Col.toList (c : Col) : List Byte := [c.b0, c.b1, c.b2, c.b3]

/-- Word `i` of a block, `W(x, i)` (R470): column `i`. -/
def Block.col (b : Block) (i : Fin 4) : Col :=
  match i with
  | 0 => b.c0
  | 1 => b.c1
  | 2 => b.c2
  | 3 => b.c3

/-- A block with column `i` replaced. -/
def Block.setCol (b : Block) (i : Fin 4) (c : Col) : Block :=
  match i with
  | 0 => { b with c0 := c }
  | 1 => { b with c1 := c }
  | 2 => { b with c2 := c }
  | 3 => { b with c3 := c }

/-- The state-matrix element `s[r][c]` (R14). -/
def Block.cell (b : Block) (r c : Fin 4) : Byte := (b.col c).row r

/-- The block whose state-matrix element `[r][c]` is `f r c`. -/
def Block.ofCells (f : Fin 4 → Fin 4 → Byte) : Block :=
  ⟨⟨f 0 0, f 1 0, f 2 0, f 3 0⟩, ⟨f 0 1, f 1 1, f 2 1, f 3 1⟩, ⟨f 0 2, f 1 2, f 2 2, f 3 2⟩, ⟨f 0 3, f 1 3, f 2 3, f 3 3⟩⟩

/-- The block whose byte `k` is `f k` (R14: byte `r + 4c` is `s[r][c]`). -/
def Block.ofBytes (f : Nat → Byte) : Block :=
  ⟨⟨f 0, f 1, f 2, f 3⟩, ⟨f 4, f 5, f 6, f 7⟩, ⟨f 8, f 9, f 10, f 11⟩, ⟨f 12, f 13, f 14, f 15⟩⟩

/-- A block with byte `k` replaced; no byte for `k` above 15. -/
def Block.set (b : Block) (k : Nat) (v : Byte) : Block :=
  match k / 4 with
  | 0 => { b with c0 := b.c0.set (k % 4) v }
  | 1 => { b with c1 := b.c1.set (k % 4) v }
  | 2 => { b with c2 := b.c2.set (k % 4) v }
  | 3 => { b with c3 := b.c3.set (k % 4) v }
  | _ => b

/-- The 16 bytes in order. -/
def Block.toList (b : Block) : List Byte := b.c0.toList ++ b.c1.toList ++ b.c2.toList ++ b.c3.toList

/-- A function applied to each byte. -/
def Block.map (f : Byte → Byte) (b : Block) : Block := ⟨b.c0.map f, b.c1.map f, b.c2.map f, b.c3.map f⟩

/-- Bytewise exclusive-or of two blocks. -/
def Block.xor (a b : Block) : Block := ⟨a.c0.xor b.c0, a.c1.xor b.c1, a.c2.xor b.c2, a.c3.xor b.c3⟩

/-- Block `j` of a byte sequence, bytes `16j .. 16j+15`; callers give sequences that hold it. -/
def blockAt (m : List Byte) (j : Nat) : Block := Block.ofBytes fun k => m.getD (16 * j + k) 0

/-- A byte sequence taken 16 bytes at a time, each block through `f`, block by block (R552, R554: independent blocks, R3). -/
def mapBlocks (f : Block → Block) (m : List Byte) : List Byte :=
  (List.range (m.length / 16)).flatMap fun j => (f (blockAt m j)).toList

end Sys2Proof
end

