-- ==== Sys2Proof/Machine/KeySchedule.lean ====
section
/-! DEFINITION. Key expansion (42_key_expansion.md R470 to R474). -/

namespace Sys2Proof

/-- RotWord (R471): one byte towards byte 0. -/
def rotWord (w : Col) : Col := ⟨w.b1, w.b2, w.b3, w.b0⟩

/-- SubWord (R472). -/
def subWord (w : Col) : Col := w.map sbox

/-- R473 for `i mod 4 = 0`: the transformed previous word, the round constant entering byte 0. -/
def transformWord (t : Col) (rc : Byte) : Col :=
  let u := subWord (rotWord t)
  { u with b0 := u.b0 ^^^ rc }

/-- Four words of R473's recurrence, `w[4r .. 4r+3]` from `w[4r-4 .. 4r-1]`: each word is the word four back exclusive-or the
previous word, transformed for the first of the four. -/
def nextRoundKey (k : Block) (rc : Byte) : Block :=
  let w0 := k.c0.xor (transformWord k.c3 rc)
  let w1 := k.c1.xor w0
  let w2 := k.c2.xor w1
  let w3 := k.c3.xor w2
  ⟨w0, w1, w2, w3⟩

/-- Round key `r` of a key (R473, R474): round key 0 is the key; round `r` uses RCON[r], since `i div 4 = r` at word `4r`. -/
def roundKey (key : Block) : Nat → Block
  | 0 => key
  | r + 1 => nextRoundKey (roundKey key r) (rcon (r + 1))

/-- KeyExpansion (R473): the 44 words as the 11 round keys. -/
def keyExpansion (key : Block) : Schedule :=
  #v[roundKey key 0, roundKey key 1, roundKey key 2, roundKey key 3, roundKey key 4, roundKey key 5, roundKey key 6,
    roundKey key 7, roundKey key 8, roundKey key 9, roundKey key 10]

/-- Word `i` of a schedule, `w[i]` (R120, R474), for `i` in 0..43. -/
def Schedule.word (rks : Schedule) (i : Fin 44) : Col :=
  (rks[i.val / 4]'(by omega)).col ⟨i.val % 4, by omega⟩

end Sys2Proof
end

