-- ==== Sys2Proof/Machine/Cipher.lean ====
section
/-! DEFINITION. The round transforms and the cipher (43_round_transforms.md R500 to R508). -/

namespace Sys2Proof

/-- SubBytes (R500). -/
def subBytes (s : Block) : Block := s.map sbox

/-- InvSubBytes (R501). -/
def invSubBytes (s : Block) : Block := s.map invSbox

/-- ShiftRows (R502): row `r` rotated left by `r`; the index sum is taken mod 4. -/
def shiftRows (s : Block) : Block := Block.ofCells fun r c => s.cell r (c + r)

/-- InvShiftRows (R503): row `r` rotated right by `r`; the index difference is taken mod 4. -/
def invShiftRows (s : Block) : Block := Block.ofCells fun r c => s.cell r (c - r)

/-- One column of MixColumns (R504). -/
def mixColumn (a : Col) : Col :=
  ⟨gmul a.b0 2 ^^^ gmul a.b1 3 ^^^ a.b2 ^^^ a.b3,
   a.b0 ^^^ gmul a.b1 2 ^^^ gmul a.b2 3 ^^^ a.b3,
   a.b0 ^^^ a.b1 ^^^ gmul a.b2 2 ^^^ gmul a.b3 3,
   gmul a.b0 3 ^^^ a.b1 ^^^ a.b2 ^^^ gmul a.b3 2⟩

/-- MixColumns (R504). -/
def mixColumns (s : Block) : Block := ⟨mixColumn s.c0, mixColumn s.c1, mixColumn s.c2, mixColumn s.c3⟩

/-- One column of InvMixColumns (R505). -/
def invMixColumn (a : Col) : Col :=
  ⟨gmul a.b0 0x0E ^^^ gmul a.b1 0x0B ^^^ gmul a.b2 0x0D ^^^ gmul a.b3 0x09,
   gmul a.b0 0x09 ^^^ gmul a.b1 0x0E ^^^ gmul a.b2 0x0B ^^^ gmul a.b3 0x0D,
   gmul a.b0 0x0D ^^^ gmul a.b1 0x09 ^^^ gmul a.b2 0x0E ^^^ gmul a.b3 0x0B,
   gmul a.b0 0x0B ^^^ gmul a.b1 0x0D ^^^ gmul a.b2 0x09 ^^^ gmul a.b3 0x0E⟩

/-- InvMixColumns (R505). -/
def invMixColumns (s : Block) : Block := ⟨invMixColumn s.c0, invMixColumn s.c1, invMixColumn s.c2, invMixColumn s.c3⟩

/-- AddRoundKey (R506). -/
def addRoundKey (s k : Block) : Block := s.xor k

/-- One full round of the cipher with its round key (R507). -/
def encRound (s k : Block) : Block := addRoundKey (mixColumns (shiftRows (subBytes s))) k

/-- One full round of the inverse cipher with its round key (R508). -/
def decRound (s k : Block) : Block := invMixColumns (addRoundKey (invSubBytes (invShiftRows s)) k)

/-- The round keys of the nine full rounds, RK(1) .. RK(9) (R507). -/
def fullRoundKeys (rks : Schedule) : List Block :=
  [rks[1], rks[2], rks[3], rks[4], rks[5], rks[6], rks[7], rks[8], rks[9]]

/-- Cipher (R507). -/
def cipher (b : Block) (rks : Schedule) : Block :=
  let s := (fullRoundKeys rks).foldl encRound (addRoundKey b rks[0])
  addRoundKey (shiftRows (subBytes s)) rks[10]

/-- InvCipher (R508): the round keys in reverse. -/
def invCipher (b : Block) (rks : Schedule) : Block :=
  let s := (fullRoundKeys rks).reverse.foldl decRound (addRoundKey b rks[10])
  addRoundKey (invSubBytes (invShiftRows s)) rks[0]

end Sys2Proof
end

