-- ==== Sys2Proof/Machine/Flags.lean ====
section
/-! DEFINITION. Status flags and fields: the result codes, the words of the status and configuration registers, and the saturating
counters (10_state.md R105, R109, R113 to R116, R129; 60_exceptions.md R702). The block has no arithmetic flags (R129). -/

namespace Sys2Proof.Machine

/-- The code of a result in `STATUS.ERR` (R702). -/
def Err.code : Err → BitVec 4
  | .ok => 0
  | .badCmd => 1
  | .noKey => 2
  | .keyLock => 3
  | .bufOvf => 4
  | .badLen => 5
  | .invPad => 6

/-- ROLE as its bit (R113): 0 encrypt, 1 decrypt. -/
def Role.bit : Role → Bool
  | .encrypt => false
  | .decrypt => true

/-- ROLE from its bit (R113). -/
def Role.ofBit (b : Bool) : Role := if b then .decrypt else .encrypt

/-- WBUSY (R114): is the consumer in HOLD? -/
def Worker.busy : Worker → Bool
  | .idle => false
  | .hold _ _ => true

/-- The STATUS word (R105): RKV bit 0, ERR bits [7:4], the rest 0. -/
def statusWord (rkv : Bool) (err : Err) : Word :=
  (0 : BitVec 24) ++ err.code ++ (0 : BitVec 3) ++ BitVec.ofBool rkv

/-- The PARAM word (R109): NCH [7:0], QDEPTH [15:8], MAXMSG [23:16]. -/
def paramWord (nch depth : Nat) : Word :=
  (0 : BitVec 8) ++ BitVec.ofNat 8 Config.maxMsg ++ BitVec.ofNat 8 depth ++ BitVec.ofNat 8 nch

/-- The CHCFG word (R113): EN bit 0, ROLE bit 1, OUT [7:4]. -/
def Channel.cfgWord (c : Channel) : Word :=
  (0 : BitVec 24) ++ c.out ++ (0 : BitVec 2) ++ BitVec.ofBool c.role.bit ++ BitVec.ofBool c.en

/-- The CHSTAT word (R114): FIDX [4:0], WBUSY bit 8, QCOUNT [23:16]. -/
def Channel.statWord (c : Channel) : Word :=
  (0 : BitVec 8) ++ BitVec.ofNat 8 c.q.length ++ (0 : BitVec 7) ++ BitVec.ofBool c.w.busy ++ (0 : BitVec 3) ++ c.fidx

/-- A 16-bit saturating increment, `min(n + 1, 0xFFFF)` (R603, R605, R608). -/
def satInc (n : BitVec 16) : BitVec 16 := BitVec.ofNat 16 (min (n.toNat + 1) Config.cntMax)

end Sys2Proof.Machine
end

