-- ==== Sys2Proof/Machine/Ops.lean ====
section
/-! DEFINITION. The named operations the meanings share: memory, channels, finishing and failing a command, bus responses, the
transmit port, fetching what the agents do next. -/

namespace Sys2Proof.Machine

/-! ### Memory -/

/-- The byte listed at an offset, if one is. -/
def Memory.read : Memory → Nat → Option Byte
  | [], _ => none
  | (x, v) :: m, a => if x = a then some v else Memory.read m a

/-- A byte written at an offset: the list stays in rising order, and an entry at the offset is replaced. -/
def Memory.write : Memory → Nat → Byte → Memory
  | [], a, b => [(a, b)]
  | (x, v) :: m, a, b =>
    if a < x then (a, b) :: (x, v) :: m
    else if a = x then (a, b) :: m
    else (x, v) :: Memory.write m a b

/-- Consecutive bytes written from an offset up. -/
def Memory.writeList (m : Memory) (a : Nat) : List Byte → Memory
  | [] => m
  | b :: bs => Memory.writeList (m.write a b) (a + 1) bs

/-- The window offset of MBUF[0] (20_memory.md R201). -/
def mbufBase : Nat := 0x200

/-- The window offset of CBUF[0] (R201). -/
def cbufBase : Nat := 0x300

/-- Is the window offset a byte of MBUF or CBUF (R201)? -/
def isBuffer (a : Nat) : Bool :=
  decide (mbufBase ≤ a ∧ a < mbufBase + Config.maxMsg) || decide (cbufBase ≤ a ∧ a < cbufBase + Config.maxMsg)

/-- The canonical form of a memory: offsets strictly rising, so equal contents are equal lists. No listed byte equals what an
unlisted one reads as, since an unlisted one has no value. -/
abbrev Memory.wf (m : Memory) : Prop := m.Pairwise fun x y => x.1 < y.1

/-- Only bytes of MBUF and CBUF are listed. -/
abbrev Memory.inBuffers (m : Memory) : Prop := ∀ x ∈ m, isBuffer x.1 = true

/-- The buffer byte at a window offset: the byte last written there, or what it holds since the last reset, the draw MBUF_INIT or
CBUF_INIT (R117, R118): a free value (log entry 4). -/
def State.bufByte (s : State) (a : Nat) : Byte := (s.mem.read a).getD (Config.bufInit s.resets a)

/-- `n` consecutive buffer bytes. -/
def State.bufBytes (s : State) (a n : Nat) : List Byte := (List.range n).map fun i => s.bufByte (a + i)

/-- The 32-bit register of the four buffer bytes from a window offset (R206). -/
def State.bufWord (s : State) (a : Nat) : Word :=
  Col.toWord ⟨s.bufByte a, s.bufByte (a + 1), s.bufByte (a + 2), s.bufByte (a + 3)⟩

/-- Consecutive buffer bytes written. -/
def State.writeBuf (s : State) (a : Nat) (bs : List Byte) : State := { s with mem := s.mem.writeList a bs }

/-! ### Channels and parameters -/

/-- NUM_CHANNELS (R8). -/
def State.numChannels (s : State) : Nat := s.chans.length

/-- R9: the constraints on NUM_CHANNELS and QUEUE_DEPTH. -/
def State.paramsOk (s : State) : Bool :=
  decide (1 ≤ s.numChannels ∧ s.numChannels ≤ 16) && decide (1 ≤ s.queueDepth ∧ s.queueDepth ≤ 255)

/-- The state with channel `ch` changed by `f`; nothing changes where the channel does not exist. -/
def State.modifyChan (s : State) (ch : Nat) (f : Channel → Channel) : State :=
  { s with chans := s.chans.modify ch f }

/-- A channel at rest: disabled, nothing queued, consumer IDLE (40_command_dispatch.md R407). -/
abbrev Channel.atRest (c : Channel) : Prop := c.en = false ∧ c.q = [] ∧ c.w = .idle

/-- The block is quiescent (R407): every channel is at rest. -/
def State.quiescent (s : State) : Bool := s.chans.all fun c => decide c.atRest

/-! ### Ending a command and a host access -/

/-- An access answered without error: `data` is what a read gives, 0 on a write. -/
def State.respond (s : State) (data : Word) : State := { s with resp := some ⟨false, data⟩ }

/-- A bus error: data 0, no state change of the block (20_memory.md R202, 60_exceptions.md R703). -/
def State.busError (s : State) : State := { s with resp := some ⟨true, 0⟩ }

/-- A command ends with result `e`: it writes STATUS.ERR once (40_command_dispatch.md R403), and the CMD write that carried it
completes without error (R400). -/
def State.finish (s : State) (e : Err) : State := { s with err := e }.respond 0

/-- `fail E` (00_scope.md R13, 60_exceptions.md R701): the spec's form of raising an exception. STATUS.ERR takes the code and
nothing else of the block changes; there is no trap entry and no return (R710, R711). -/
def State.fail (s : State) (e : Err) : State := s.finish e

/-! ### The transmit port -/

/-- A transmit request TX(ch, out, data) (20_memory.md R214, 30_encoding.md R309). -/
structure TxRequest where
  ch : Nat
  out : BitVec 4
  data : Block
  deriving DecidableEq, Repr

/-- The request presented for source channel `ch`: one exactly while its consumer is in HOLD (R214). -/
def State.txRequest (s : State) (ch : Nat) : Option TxRequest :=
  match s.chans[ch]? with
  | some c =>
    match c.w with
    | .idle => none
    | .hold out data => some ⟨ch, out, data⟩
  | none => none

/-! ### Fetching -/

/-- What acts next: the first pending stimulus, or, with none pending, the next free one (R220, log entry 3). -/
def State.nextStimulus (s : State) : Stimulus :=
  match s.pending with
  | [] => Config.freeStimulus s.clock
  | x :: _ => x

/-- The state once that stimulus has been taken. -/
def State.taken (s : State) : State :=
  match s.pending with
  | [] => { s with clock := s.clock + 1 }
  | _ :: rest => { s with pending := rest }

/-- The instruction that stimulus is. -/
def State.fetch (s : State) : Instr := decodeStimulus s.numChannels s.nextStimulus

/-- The state with a table word laid where the next fetch finds it: written to CMD, or delivered on the event port; unchanged for
a width no format has. -/
def State.placeWord (s : State) (nbits w : Nat) : State :=
  match wordStimulus nbits w with
  | some x => { s with pending := x :: s.pending }
  | none => s

end Sys2Proof.Machine
end

