-- ==== Sys2Proof/Machine/Operands.lean ====
section
/-! DEFINITION. The operands of a host access: the register map, and each register's read value (20_memory.md R201 to R206;
10_state.md R104 to R118). -/

namespace Sys2Proof.Machine

/-- The registers of the window (R201). -/
inductive Reg where
  | cmd
  | status
  | resync
  | msgLen
  | ctLen
  | param
  | key (i : Fin 4)
  | din (i : Fin 4)
  | dout (i : Fin 4)
  | chCfg (ch : Nat)
  | chStat (ch : Nat)
  | qdrop (ch : Nat)
  | txfail (ch : Nat)
  | mbuf (i : Fin 32)
  | cbuf (i : Fin 32)
  deriving DecidableEq, Repr

/-- The offset of a register (R201). -/
def Reg.offset : Reg → Nat
  | .cmd => 0x000
  | .status => 0x004
  | .resync => 0x008
  | .msgLen => 0x00C
  | .ctLen => 0x010
  | .param => 0x014
  | .key i => 0x020 + 4 * i
  | .din i => 0x030 + 4 * i
  | .dout i => 0x040 + 4 * i
  | .chCfg ch => 0x100 + 0x10 * ch
  | .chStat ch => 0x104 + 0x10 * ch
  | .qdrop ch => 0x108 + 0x10 * ch
  | .txfail ch => 0x10C + 0x10 * ch
  | .mbuf i => 0x200 + 4 * i
  | .cbuf i => 0x300 + 4 * i

/-- The register at word `k` of the window's first 0x100 bytes (R201): words 6, 7 and 20 up are unmapped. -/
def blockReg : Nat → Option Reg
  | 0 => some .cmd
  | 1 => some .status
  | 2 => some .resync
  | 3 => some .msgLen
  | 4 => some .ctLen
  | 5 => some .param
  | 8 => some (.key 0)
  | 9 => some (.key 1)
  | 10 => some (.key 2)
  | 11 => some (.key 3)
  | 12 => some (.din 0)
  | 13 => some (.din 1)
  | 14 => some (.din 2)
  | 15 => some (.din 3)
  | 16 => some (.dout 0)
  | 17 => some (.dout 1)
  | 18 => some (.dout 2)
  | 19 => some (.dout 3)
  | _ => none

/-- The register at word `k` of channel `ch`'s 0x10 bytes (R201). -/
def chanReg (ch : Nat) : Nat → Reg
  | 0 => .chCfg ch
  | 1 => .chStat ch
  | 2 => .qdrop ch
  | _ => .txfail ch

/-- The register at byte offset `n`, a multiple of 4, of a block with `nch` channels; none where the offset is unmapped (R201). -/
def mappedReg (nch n : Nat) : Option Reg :=
  if n < 0x100 then blockReg (n / 4)
  else if n < 0x200 then
    if (n - 0x100) / 0x10 < nch then some (chanReg ((n - 0x100) / 0x10) (n % 0x10 / 4)) else none
  else if n < 0x300 then
    if n < 0x280 then some (.mbuf (Fin.ofNat 32 ((n - 0x200) / 4))) else none
  else if n < 0x380 then some (.cbuf (Fin.ofNat 32 ((n - 0x300) / 4)))
  else none

/-- The register at byte offset `n` (R201); none where the offset is no multiple of 4 (R203). -/
def regAt (nch n : Nat) : Option Reg := if n % 4 = 0 then mappedReg nch n else none

/-- The register a host access reaches: none where it is a bus error, for its width or its offset (R202, R203). -/
def State.accessReg (s : State) (size : AccessSize) (off : BitVec 10) : Option Reg :=
  if size = .word then regAt s.numChannels off.toNat else none

/-- A register of channel `ch`, 0 where there is no such channel (`regAt` gives none then). -/
def State.chanWord (s : State) (ch : Nat) (f : Channel → Word) : Word := (s.chans[ch]?.map f).getD 0

/-- The word a host read of a register gives (R104 to R118, R204, R205). -/
def State.readReg (s : State) : Reg → Word
  | .cmd => 0
  | .status => statusWord s.rkv s.err
  | .resync => s.thresh.setWidth 32
  | .msgLen => s.msgLen.setWidth 32
  | .ctLen => s.ctLen.setWidth 32
  | .param => paramWord s.numChannels s.queueDepth
  | .key _ => 0
  | .din i => (s.din.col i).toWord
  | .dout i => (s.dout.col i).toWord
  | .chCfg ch => s.chanWord ch Channel.cfgWord
  | .chStat ch => s.chanWord ch Channel.statWord
  | .qdrop ch => s.chanWord ch fun c => c.qdrop.setWidth 32
  | .txfail ch => s.chanWord ch fun c => c.txfail.setWidth 32
  | .mbuf i => s.bufWord (mbufBase + 4 * i)
  | .cbuf i => s.bufWord (cbufBase + 4 * i)

/-- A CHCFG write on its channel (45_framer_queue.md R601): EN only with a key schedule; a cleared EN discards the partial
frame. -/
def Channel.writeCfg (rkv : Bool) (v : Word) (c : Channel) : Channel :=
  let newEn := v.getLsbD 0 && rkv
  { c with
    role := Role.ofBit (v.getLsbD 1)
    out := v.extractLsb' 4 4
    en := newEn
    fidx := if c.en = true ∧ newEn = false then 0 else c.fidx }

/-- A host write of `v` to a register other than CMD (R204, R205, R209, R601): RO registers ignore it. CMD is not stored
(R104): its write is a command, see `execHostWr`. -/
def State.writeReg (s : State) (v : Word) : Reg → State
  | .cmd => s
  | .status => s
  | .resync => { s with thresh := v.extractLsb' 0 16 }
  | .msgLen => { s with msgLen := v.extractLsb' 0 8 }
  | .ctLen => { s with ctLen := v.extractLsb' 0 8 }
  | .param => s
  | .key i => { s with key := s.key.setCol i (Col.ofWord v) }
  | .din i => { s with din := s.din.setCol i (Col.ofWord v) }
  | .dout _ => s
  | .chCfg ch => s.modifyChan ch (Channel.writeCfg s.rkv v)
  | .chStat _ => s
  | .qdrop _ => s
  | .txfail _ => s
  | .mbuf i => s.writeBuf (mbufBase + 4 * i) (Col.ofWord v).toList
  | .cbuf i => s.writeBuf (cbufBase + 4 * i) (Col.ofWord v).toList

end Sys2Proof.Machine
end

