-- ==== Sys2Proof/Machine/Consumer.lean ====
section
/-! DEFINITION. The consumer's step WORKER_POP (45_framer_queue.md R607). -/

namespace Sys2Proof.Machine

/-- What a consumer makes of a frame, by its channel's role (R607). -/
def Role.apply (r : Role) (f : Block) (rks : Schedule) : Block :=
  match r with
  | .encrypt => cipher f rks
  | .decrypt => invCipher f rks

/-- WORKER_POP on its channel (R607): enabled when IDLE, a frame is queued and a schedule is valid. A pop that is not enabled has
no step: nothing changes (log entry 6). -/
def Channel.pop (rkv : Bool) (rks : Schedule) (c : Channel) : Channel :=
  match rkv, c.w, c.q with
  | true, .idle, f :: rest => { c with q := rest, w := .hold c.out (c.role.apply f rks) }
  | _, _, _ => c

/-- WORKER_POP(ch) (R607). -/
def execWorkerPop (ch : BitVec 4) (s : State) : Host.Outcome State Fault Refusal :=
  .next (s.modifyChan ch.toNat (Channel.pop s.rkv s.rks))

end Sys2Proof.Machine
end

