-- ==== Sys2Proof/Machine/Events.lean ====
section
/-! DEFINITION. The environment's events: RX_BYTE, TICK, TX_DONE, and every other event word (45_framer_queue.md R602 to R605, R608;
30_encoding.md R308). No event writes STATUS (R403), and every event has a step (R614). -/

namespace Sys2Proof.Machine

/-- DropFull (R605): a completed frame meets a full queue. -/
def Channel.dropFull (c : Channel) : Channel := { c with qdrop := satInc c.qdrop }

/-- Handoff (R604): the frame is copied into the queue, or dropped where the queue holds `depth` frames. -/
def Channel.handoff (depth : Nat) (f : Block) (c : Channel) : Channel :=
  if c.q.length < depth then { c with q := c.q ++ [f] } else c.dropFull

/-- The index the received byte is stored at (R602): 0 after a gap of more than THRESH ticks. -/
def Channel.rxIndex (thresh : BitVec 16) (c : Channel) : BitVec 5 :=
  if c.idle.toNat > thresh.toNat then 0 else c.fidx

/-- RX_BYTE on its channel (R602). -/
def Channel.rxByte (thresh : BitVec 16) (depth : Nat) (b : Byte) (c : Channel) : Channel :=
  if c.en then
    let i := c.rxIndex thresh
    let c' := { c with fbuf := c.fbuf.set i.toNat b, fidx := i + 1, idle := 0 }
    if c'.fidx = 16 then { c'.handoff depth c'.fbuf with fidx := 0 } else c'
  else c

/-- TICK on a channel (R603). -/
def Channel.tick (c : Channel) : Channel := { c with idle := satInc c.idle }

/-- TX_DONE on its channel (R608): an answer to an idle consumer is ignored. -/
def Channel.txDone (fail : Bool) (c : Channel) : Channel :=
  match c.w with
  | .idle => c
  | .hold _ _ => { c with txfail := if fail then satInc c.txfail else c.txfail, w := .idle }

/-- RX_BYTE(ch, b) (R602); ignored where there is no such channel. -/
def execRxByte (ch : BitVec 4) (b : Byte) (s : State) : Host.Outcome State Fault Refusal :=
  .next (s.modifyChan ch.toNat (Channel.rxByte s.thresh s.queueDepth b))

/-- TICK (R603): every channel's idle counter. -/
def execTick (s : State) : Host.Outcome State Fault Refusal :=
  .next { s with chans := s.chans.map Channel.tick }

/-- TX_DONE(ch, fail) (R608); ignored where there is no such channel. -/
def execTxDone (ch : BitVec 4) (fail : Bool) (s : State) : Host.Outcome State Fault Refusal :=
  .next (s.modifyChan ch.toNat (Channel.txDone fail))

/-- An event word that is no RX_BYTE, TICK or TX_DONE is ignored (R308). -/
def execEvReserved (_e : BitVec 16) (s : State) : Host.Outcome State Fault Refusal := .next s

end Sys2Proof.Machine
end

