-- ==== Sys2Proof/Machine/BlockCommands.lean ====
section
/-! DEFINITION. ENC_BLK and DEC_BLK (43_round_transforms.md R510, R511). -/

namespace Sys2Proof.Machine

/-- ENC_BLK (R510). -/
def execEncBlk (s : State) : Host.Outcome State Fault Refusal :=
  if s.rkv then .next ({ s with dout := cipher s.din s.rks }.finish .ok)
  else .next (s.fail .noKey)

/-- DEC_BLK (R511). -/
def execDecBlk (s : State) : Host.Outcome State Fault Refusal :=
  if s.rkv then .next ({ s with dout := invCipher s.din s.rks }.finish .ok)
  else .next (s.fail .noKey)

end Sys2Proof.Machine
end

