-- ==== Sys2Proof/Machine/Housekeeping.lean ====
section
/-! DEFINITION. The commands of no cipher family: NOP, CLR_CNT, and every invalid command (40_command_dispatch.md R401, R404, R405). -/

namespace Sys2Proof.Machine

/-- NOP (R404). -/
def execNop (s : State) : Host.Outcome State Fault Refusal := .next (s.finish .ok)

/-- Both drop counters of a channel cleared (R405). -/
def Channel.clearCounters (c : Channel) : Channel := { c with qdrop := 0, txfail := 0 }

/-- CLR_CNT ch (R405); BADCMD where there is no such channel (R304). -/
def execClrCnt (ch : BitVec 4) (s : State) : Host.Outcome State Fault Refusal :=
  if ch.toNat < s.numChannels then .next ((s.modifyChan ch.toNat Channel.clearCounters).finish .ok)
  else .next (s.fail .badCmd)

/-- BADCMD (R401): an invalid command word changes nothing but ERR, whatever the word is. -/
def execBadCmd (_w : Word) (s : State) : Host.Outcome State Fault Refusal := .next (s.fail .badCmd)

end Sys2Proof.Machine
end

