-- ==== Sys2Proof/Machine/KeyCommands.lean ====
section
/-! DEFINITION. KEY_EXPAND and REINIT (42_key_expansion.md R475, R476). -/

namespace Sys2Proof.Machine

/-- KEY_EXPAND (R475). -/
def execKeyExpand (s : State) : Host.Outcome State Fault Refusal :=
  if s.quiescent then
    .next ({ s with keyLatched := s.key, rks := keyExpansion s.key, rkv := true }.finish .ok)
  else .next (s.fail .keyLock)

/-- REINIT (R476). -/
def execReinit (s : State) : Host.Outcome State Fault Refusal :=
  if s.rkv then .next ({ s with rks := keyExpansion s.keyLatched }.finish .ok)
  else .next (s.fail .noKey)

end Sys2Proof.Machine
end

