-- ==== Sys2Proof/Machine/Padding.lean ====
section
/-! DEFINITION. The padding framer's arithmetic (44_padding.md R550, R551, R553). -/

namespace Sys2Proof

/-- PadLen (R550). -/
def padLen (l : Nat) : Nat := (l / 16 + 1) * 16

/-- Pad (R551): the pad byte is the number of pad bytes. -/
def pad (m : List Byte) : List Byte :=
  let p := padLen m.length - m.length
  m ++ List.replicate p (BitVec.ofNat 8 p)

/-- The pad value of a decrypted plaintext (R553): its last byte. Callers give a nonempty one. -/
def padValue (d : List Byte) : Byte := d.getLast?.getD 0

/-- R553's acceptance: the pad value is neither 0 nor above 16. -/
def padAccepted (d : List Byte) : Bool := decide (1 ≤ (padValue d).toNat ∧ (padValue d).toNat ≤ 16)

/-- The message of an accepted plaintext (R553): all but its last `pv` bytes. -/
def unpad (d : List Byte) : List Byte := d.take (d.length - (padValue d).toNat)

end Sys2Proof
end

