-- ==== Sys2Proof/Machine/PadCommands.lean ====
section
/-! DEFINITION. PAD_ENC and DEC_UNPAD (44_padding.md R552, R554). -/

namespace Sys2Proof.Machine

/-- The message PAD_ENC pads: MBUF[0 .. MSGLEN-1] (R552). -/
def State.message (s : State) : List Byte := s.bufBytes mbufBase s.msgLen.toNat

/-- The plaintext DEC_UNPAD decrypts: CBUF[0 .. CTLEN-1], block by block (R554). -/
def State.plaintext (s : State) : List Byte :=
  mapBlocks (fun b => invCipher b s.rks) (s.bufBytes cbufBase s.ctLen.toNat)

/-- R554's length check: a nonzero multiple of 16, not above MAX_MSG. -/
def State.ctLenOk (s : State) : Bool :=
  decide (s.ctLen.toNat ≠ 0 ∧ s.ctLen.toNat % 16 = 0 ∧ s.ctLen.toNat ≤ Config.maxMsg)

/-- PAD_ENC (R552); every check stands before any read or write. -/
def execPadEnc (s : State) : Host.Outcome State Fault Refusal :=
  if s.rkv then
    if padLen s.msgLen.toNat ≤ Config.maxMsg then
      let ct := mapBlocks (fun b => cipher b s.rks) (pad s.message)
      .next ({ s.writeBuf cbufBase ct with ctLen := BitVec.ofNat 8 (padLen s.msgLen.toNat) }.finish .ok)
    else .next (s.fail .bufOvf)
  else .next (s.fail .noKey)

/-- DEC_UNPAD (R554): NOKEY, then BADLEN, then INVPAD (R402), and only then the writes: the message, its 0x00 terminator, MSGLEN. -/
def execDecUnpad (s : State) : Host.Outcome State Fault Refusal :=
  if s.rkv then
    if s.ctLenOk then
      let d := s.plaintext
      if padAccepted d then
        .next ({ s.writeBuf mbufBase (unpad d ++ [0]) with msgLen := BitVec.ofNat 8 (unpad d).length }.finish .ok)
      else .next (s.fail .invPad)
    else .next (s.fail .badLen)
  else .next (s.fail .noKey)

end Sys2Proof.Machine
end

