-- ==== Sys2Proof/Machine/HostBus.lean ====
section
/-! DEFINITION. Host bus accesses: HOST_WR and HOST_RD (20_memory.md R201 to R206, R209; 40_command_dispatch.md R400). -/

namespace Sys2Proof.Machine

/-- A decoded command executed (R400). -/
def runCommand (c : Command) (s : State) : Host.Outcome State Fault Refusal :=
  match c with
  | .nop => execNop s
  | .keyExpand => execKeyExpand s
  | .encBlk => execEncBlk s
  | .decBlk => execDecBlk s
  | .padEnc => execPadEnc s
  | .decUnpad => execDecUnpad s
  | .reinit => execReinit s
  | .clrCnt ch => execClrCnt ch s
  | .badCmd w => execBadCmd w s

/-- HOST_WR: a write of CMD executes a command (R400), a write of another register is `State.writeReg`, any other access is a bus
error (R202, R203). -/
def execHostWr (size : AccessSize) (off : BitVec 10) (v : Word) (s : State) : Host.Outcome State Fault Refusal :=
  match s.accessReg size off with
  | none => .next s.busError
  | some .cmd => runCommand (decodeCmd s.numChannels v) s
  | some r => .next ((s.writeReg v r).respond 0)

/-- HOST_RD: the register's word, with no side effect (R209); any other access is a bus error (R202, R203). -/
def execHostRd (size : AccessSize) (off : BitVec 10) (s : State) : Host.Outcome State Fault Refusal :=
  match s.accessReg size off with
  | none => .next s.busError
  | some r => .next (s.respond (s.readReg r))

end Sys2Proof.Machine
end

