-- ==== Sys2Proof/Machine/Reset.lean ====
section
/-! DEFINITION. RESET (70_reset_and_hazards.md R800, R801). -/

namespace Sys2Proof.Machine

/-- RESET (R800): the whole state takes the values of R801, whatever it was. The block's parameters are not state and stay (R8,
R109); the buffers take a new draw (R117, R118); what the agents do next is not the block's (log entries 3 and 4). -/
def execReset (s : State) : Host.Outcome State Fault Refusal :=
  .next (State.resetWith s.numChannels s.queueDepth (s.resets + 1) s.clock s.pending)

end Sys2Proof.Machine
end

