-- ==== Sys2Proof/Machine/Dispatch.lean ====
section
/-! DEFINITION. One arm per instruction. -/

namespace Sys2Proof.Machine

/-- What an instruction does. -/
def exec (i : Instr) (s : State) : Host.Outcome State Fault Refusal :=
  match i with
  | .nop => Sys2Proof.Machine.execNop s
  | .keyExpand => Sys2Proof.Machine.execKeyExpand s
  | .encBlk => Sys2Proof.Machine.execEncBlk s
  | .decBlk => Sys2Proof.Machine.execDecBlk s
  | .padEnc => Sys2Proof.Machine.execPadEnc s
  | .decUnpad => Sys2Proof.Machine.execDecUnpad s
  | .reinit => Sys2Proof.Machine.execReinit s
  | .clrCnt ch => Sys2Proof.Machine.execClrCnt ch s
  | .badCmd w => Sys2Proof.Machine.execBadCmd w s
  | .rxByte ch b => Sys2Proof.Machine.execRxByte ch b s
  | .tick => Sys2Proof.Machine.execTick s
  | .txDone ch fail => Sys2Proof.Machine.execTxDone ch fail s
  | .evReserved e => Sys2Proof.Machine.execEvReserved e s
  | .workerPop ch => Sys2Proof.Machine.execWorkerPop ch s
  | .hostWr size off v => Sys2Proof.Machine.execHostWr size off v s
  | .hostRd size off => Sys2Proof.Machine.execHostRd size off s
  | .reset => Sys2Proof.Machine.execReset s

end Sys2Proof.Machine
end

