-- ==== Sys2Proof/Machine/Step.lean ====
section
/-! DEFINITION. One step of the machine: the next stimulus is taken, decoded and executed, all at once (20_memory.md R220). -/

namespace Sys2Proof.Machine

/-- One atomic step of one agent (R220). A configuration that violates R9 is refused. -/
def step (s : State) : Host.Outcome State Fault Refusal :=
  if s.paramsOk then exec s.fetch s.taken else .refused .badParameters

/-- The state with a table word laid where the next step finds it (log entry 3). -/
def State.withFetchWord (s : State) (nbits w : Nat) : State := s.placeWord nbits w

end Sys2Proof.Machine
end

