-- ==== Sys2Proof/Safety.lean ====
section
/-! DEFINITION. The terms claims use: the invariants of 10_state.md R128, the framer's named states (45_framer_queue.md R606), and
the ends of a run (70_reset_and_hazards.md R813). -/

namespace Sys2Proof.Machine

/-- What holds of one channel between steps (R128 items 2 to 5). -/
structure Channel.Inv (depth : Nat) (rkv : Bool) (c : Channel) : Prop where
  fidx_lt : c.fidx.toNat < 16
  queue_le : c.q.length ≤ depth
  enabled_keyed : c.en = true → rkv = true
  queued_keyed : c.q ≠ [] → rkv = true
  held_keyed : c.w ≠ .idle → rkv = true

/-- The invariants that hold between any two steps: R128, and the memory's canonical form over the two buffers. -/
structure State.Inv (s : State) : Prop where
  keyed : s.rkv = true → s.rks = keyExpansion s.keyLatched
  chans : ∀ c ∈ s.chans, c.Inv s.queueDepth s.rkv
  mem_wf : s.mem.wf
  mem_buffers : s.mem.inBuffers

/-- The framer's states as R606 names them. -/
inductive FramerState where
  | idle
  | filling
  | full
  deriving DecidableEq, Repr

/-- The state a channel's framer is in (R606). `full` is the instant inside an RX_BYTE step, never between steps. -/
def Channel.framer (c : Channel) : FramerState :=
  if c.fidx = 0 then .idle else if c.fidx.toNat < 16 then .filling else .full

/-- Is the instruction one of the host's commands (R302)? -/
def isCommand : Instr → Bool
  | .nop => true
  | .keyExpand => true
  | .encBlk => true
  | .decBlk => true
  | .padEnc => true
  | .decUnpad => true
  | .reinit => true
  | .clrCnt _ => true
  | .badCmd _ => true
  | .rxByte _ _ => false
  | .tick => false
  | .txDone _ _ => false
  | .evReserved _ => false
  | .workerPop _ => false
  | .hostWr _ _ _ => false
  | .hostRd _ _ => false
  | .reset => false

/-- Every queue is empty and every consumer IDLE (R813). -/
def State.drained (s : State) : Prop := ∀ c ∈ s.chans, c.q = [] ∧ c.w = .idle

/-- Is the stimulus an environment event? -/
def isEvent : Stimulus → Bool
  | .hostWrite _ _ _ => false
  | .hostRead _ _ => false
  | .event _ => true
  | .consumer _ => false
  | .resetInput => false

/-- Drained, and no further event is delivered (R813). -/
def State.settled (s : State) : Prop :=
  s.drained ∧ (∀ x ∈ s.pending, isEvent x = false) ∧ ∀ n, s.clock ≤ n → isEvent (Config.freeStimulus n) = false

/-- The values R801 gives every element after reset. S.fbuf, unspecified there, is not constrained; MBUF and CBUF are the draw of
the reset (R117, R118). -/
structure State.AtReset (s : State) : Prop where
  rkv : s.rkv = false
  err : s.err = .ok
  thresh : s.thresh = 0x000A
  msgLen : s.msgLen = 0
  ctLen : s.ctLen = 0
  key : s.key = Block.zero
  din : s.din = Block.zero
  dout : s.dout = Block.zero
  rks : ∀ r : Fin 11, s.rks[r] = Block.zero
  keyLatched : s.keyLatched = Block.zero
  buffers : ∀ a, s.bufByte a = Config.bufInit s.resets a
  chans : ∀ ch c, s.chans[ch]? = some c →
    c.en = false ∧ c.role = .encrypt ∧ c.out = BitVec.ofNat 4 ch ∧ c.fidx = 0 ∧ c.idle = 0 ∧ c.q = [] ∧ c.w = .idle ∧
      c.qdrop = 0 ∧ c.txfail = 0

/-- Two channels differ at most in the frame buffer's bytes at and above the write index, which R123 calls unobservable. -/
def Channel.Agree (c d : Channel) : Prop :=
  c = { d with fbuf := c.fbuf } ∧ ∀ k < c.fidx.toNat, c.fbuf.toList[k]? = d.fbuf.toList[k]?

/-- Two states differ at most in such bytes. -/
def State.Agree (s t : State) : Prop := s = { t with chans := s.chans } ∧ List.Forall₂ Channel.Agree s.chans t.chans

/-- A sequence of instructions executed one after the other. -/
def execAll : List Instr → State → Host.Outcome State Fault Refusal
  | [], s => .next s
  | i :: is, s =>
    match exec i s with
    | .next t => execAll is t
    | .fault r => .fault r
    | .refused r => .refused r

/-- An offset R201 names as unmapped in a block of `nch` channels. -/
def unmapped (nch n : Nat) : Prop :=
  (0x018 ≤ n ∧ n < 0x020) ∨ (0x050 ≤ n ∧ n < 0x100) ∨ (0x100 + 0x10 * nch ≤ n ∧ n < 0x200) ∨ (0x280 ≤ n ∧ n < 0x300) ∨
    (0x380 ≤ n ∧ n < 0x400)

end Sys2Proof.Machine
end

