-- ==== Sys2Proof/Certificates/Slice0/Obligations.lean ====
section
/-! DEFINITION. The statements for the provers. In every result statement `{ s with … }` names all that changes: every other field is
unchanged. `resp` is the model's own record of the bus response (log entry 7); `⟨false, 0⟩` is a write answered without error. -/

open Sys2Proof Sys2Proof.Machine

/-! ### Encoding and decoding -/

/-- Decode of encode is the instruction, for every well-formed instruction with every operand (30_encoding.md sections 1 and 2). -/
def Obligations.InstructionRoundTrip : Prop :=
  ∀ (nch : Nat) (i : Instr), i.wellFormed nch = true → decodeStimulus nch (encode i) = i

/-- Encode of decode is the stimulus: no bit of a word or of an access is dropped by the decoder (30_encoding.md sections 1, 2). -/
def Obligations.StimulusRoundTrip : Prop :=
  ∀ (nch : Nat) (x : Stimulus), encode (decodeStimulus nch x) = x

/-- R311: the valid command words, each by its number, and every other word is BADCMD. -/
def Obligations.CommandWordMap : Prop :=
  ∀ (nch : Nat) (w : Word), decodeCmd nch w =
    if w = 0x00000000 then .nop
    else if w = 0x00000001 then .keyExpand
    else if w = 0x00000002 then .encBlk
    else if w = 0x00000003 then .decBlk
    else if w = 0x00000004 then .padEnc
    else if w = 0x00000005 then .decUnpad
    else if w = 0x00000006 then .reinit
    else if w.toNat < 256 ∧ w.toNat % 16 = 7 ∧ w.toNat / 16 < nch then .clrCnt (BitVec.ofNat 4 (w.toNat / 16))
    else .badCmd w

/-- R304: which command words are invalid, and what executing one does. -/
def Obligations.InvalidCommandWords : Prop :=
  ∀ (s : State) (w : Word),
    let op := w.toNat % 16
    let ch := w.toNat / 16 % 16
    let res := w.toNat / 256
    let invalid := res ≠ 0 ∨ 8 ≤ op ∨ (op ≠ 7 ∧ ch ≠ 0) ∨ (op = 7 ∧ s.numChannels ≤ ch)
    (invalid → exec (.hostWr .word 0 w) s = .next { s with err := .badCmd, resp := some ⟨false, 0⟩ }) ∧
    (¬invalid → decodeCmd s.numChannels w ≠ .badCmd w)

/-- R312: every event word, by its number. -/
def Obligations.EventWordMap : Prop :=
  ∀ e : BitVec 16,
    let ev := e.toNat / 4096
    let ch := BitVec.ofNat 4 (e.toNat / 256)
    decodeEv e =
      if ev = 1 then .rxByte ch (BitVec.ofNat 8 e.toNat)
      else if e = 0x2000 then .tick
      else if ev = 3 ∧ e.toNat % 256 ≤ 1 then .txDone ch (e.toNat % 2 == 1)
      else .evReserved e

/-- Sample words, written out from R302 and R307, decode to their instructions (95_test_vectors.md L2-DS-1, L2-DS-2). -/
def Obligations.WrittenOutWordsDecode : Prop :=
  decodeTableWord 32 0x00000000 = some .nop ∧ decodeTableWord 32 0x00000001 = some .keyExpand ∧
  decodeTableWord 32 0x00000004 = some .padEnc ∧ decodeTableWord 32 0x00000017 = some (.clrCnt 1) ∧
  decodeTableWord 32 0x00000027 = some (.badCmd 0x27) ∧ decodeTableWord 32 0x00000012 = some (.badCmd 0x12) ∧
  decodeTableWord 16 0x11FF = some (.rxByte 1 0xFF) ∧ decodeTableWord 16 0x2000 = some .tick ∧
  decodeTableWord 16 0x3101 = some (.txDone 1 true) ∧ decodeTableWord 16 0x3002 = some (.evReserved 0x3002)

/-- The register map leaves unmapped exactly the offsets 20_memory.md section 1 names, and the offsets that are no multiple of 4. -/
def Obligations.UnmappedOffsets : Prop :=
  ∀ nch n : Nat, nch ≤ 16 → n < 0x400 → (regAt nch n = none ↔ n % 4 ≠ 0 ∨ unmapped nch n)

/-! ### Reset, steps, invariants -/

/-- The state after reset, element by element (70_reset_and_hazards.md section 1). That `State.reset` has two channels with queues
of depth two is the model's choice (log entry 1). -/
def Obligations.ResetStateValues : Prop :=
  State.reset.AtReset ∧ State.reset.paramsOk = true ∧ State.reset.pending = []

/-- RESET is one step that replaces the block's state by the reset values, whatever it was (70_reset_and_hazards.md section 1). The
model's choices: the parameters, `pending` and `clock` stay (log entries 11, 3), the buffers take a new draw, `resets + 1` (log entry 4),
and `resp` is none (log entry 7). -/
def Obligations.ResetReplacesState : Prop :=
  ∀ s : State, ∃ t, exec .reset s = .next t ∧ t.AtReset ∧ t.chans.length = s.chans.length ∧ t.queueDepth = s.queueDepth ∧
    t.resets = s.resets + 1 ∧ t.resp = none ∧ t.pending = s.pending ∧ t.clock = s.clock

/-- A step takes the next stimulus, the first pending one or a free one, decodes it and executes it (20_memory.md R220 says each
step is one agent's; the list of stimuli is the model's, log entry 3). The last clauses say what each stimulus is (30_encoding.md R300,
R310); a 32-bit write of CMD, the one left out, is the command (`CmdWriteExecutesCommand`, log entry 9). -/
def Obligations.StepRunsDecoded : Prop :=
  (∀ s : State, s.paramsOk = true →
    (∀ x rest, s.pending = x :: rest →
      step s = exec (decodeStimulus s.numChannels x) { s with pending := rest }) ∧
    (s.pending = [] →
      step s = exec (decodeStimulus s.numChannels (Config.freeStimulus s.clock)) { s with clock := s.clock + 1 })) ∧
  ∀ nch : Nat,
    (∀ e, decodeStimulus nch (.event e) = decodeEv e) ∧
    (∀ size off, decodeStimulus nch (.hostRead size off) = .hostRd size off) ∧
    (∀ size off v, size ≠ .word ∨ off ≠ 0 → decodeStimulus nch (.hostWrite size off v) = .hostWr size off v) ∧
    (∀ ch, decodeStimulus nch (.consumer ch) = .workerPop ch) ∧ decodeStimulus nch .resetInput = .reset

/-- R9: a configuration out of range is refused. -/
def Obligations.IllegalParametersRefused : Prop :=
  (∀ s : State, ¬(1 ≤ s.numChannels ∧ s.numChannels ≤ 16 ∧ 1 ≤ s.queueDepth ∧ s.queueDepth ≤ 255) →
    step s = .refused .badParameters) ∧
  Config.maxMsg % 16 = 0 ∧ Config.maxMsg / 16 = 8

/-- No condition makes the block stop: every instruction has a next state in every state (60_exceptions.md section 1;
45_framer_queue.md section 4). It covers two cases to which the spec gives no step or no meaning, and there it says the model's own
convention: a WORKER_POP that is not enabled (log entry 6) and a configuration out of range, which `step` refuses (log entry 2). -/
def Obligations.EveryInstructionSteps : Prop :=
  ∀ (i : Instr) (s : State), ∃ t, exec i s = .next t

/-- The invariants hold after reset (10_state.md section 4). -/
def Obligations.ResetMeetsInvariant : Prop := State.reset.Inv

/-- Every step keeps the invariants of 10_state.md section 4 (the spec marks them as derived), and the memory's canonical form. -/
def Obligations.StepKeepsInvariant : Prop :=
  ∀ s t : State, s.Inv → step s = .next t → t.Inv

/-- R109: the PARAM register's fields, and that nothing changes them, reset included. -/
def Obligations.ParamRegisterConstant : Prop :=
  ∀ s : State, s.paramsOk = true →
    let w := s.readReg .param
    (w.extractLsb' 0 8).toNat = s.numChannels ∧ (w.extractLsb' 8 8).toNat = s.queueDepth ∧ w.extractLsb' 16 8 = 0x80 ∧
    w.extractLsb' 24 8 = 0 ∧ ∀ i t, exec i s = .next t → t.readReg .param = w

/-! ### Commands -/

/-- R404: NOP writes ERR = OK and nothing else. -/
def Obligations.NopWritesOnlyErr : Prop :=
  ∀ s : State, exec .nop s = .next { s with err := .ok, resp := some ⟨false, 0⟩ }

/-- R401: an invalid command writes ERR = 1 and nothing else. -/
def Obligations.BadCmdWritesOnlyErr : Prop :=
  (∀ (w : Word) (s : State), exec (.badCmd w) s = .next { s with err := .badCmd, resp := some ⟨false, 0⟩ }) ∧
  Err.badCmd.code = 1

/-- R405: CLR_CNT clears the two counters of its channel; BADCMD where there is no such channel. -/
def Obligations.ClrCntClearsOneChannel : Prop :=
  ∀ (s : State) (ch : BitVec 4),
    (∀ c, s.chans[ch.toNat]? = some c →
      exec (.clrCnt ch) s = .next { s with
        chans := s.chans.set ch.toNat { c with qdrop := 0, txfail := 0 }, err := .ok, resp := some ⟨false, 0⟩ }) ∧
    (s.numChannels ≤ ch.toNat → exec (.clrCnt ch) s = .next { s with err := .badCmd, resp := some ⟨false, 0⟩ })

/-- R475, R407: KEY_EXPAND latches KEY and derives the schedule exactly when every channel is disabled, empty and IDLE; else
KEYLOCK and nothing else. -/
def Obligations.KeyExpandNeedsQuiescence : Prop :=
  ∀ s : State,
    ((∀ c ∈ s.chans, c.en = false ∧ c.q = [] ∧ c.w = .idle) →
      exec .keyExpand s = .next { s with
        keyLatched := s.key, rks := keyExpansion s.key, rkv := true, err := .ok, resp := some ⟨false, 0⟩ }) ∧
    ((∃ c ∈ s.chans, c.en = true ∨ c.q ≠ [] ∨ c.w ≠ .idle) →
      exec .keyExpand s = .next { s with err := .keyLock, resp := some ⟨false, 0⟩ })

/-- R476: REINIT re-derives the schedule from the latched key; NOKEY before any key. -/
def Obligations.ReinitRederivesSchedule : Prop :=
  ∀ s : State,
    (s.rkv = true → exec .reinit s = .next { s with rks := keyExpansion s.keyLatched, err := .ok, resp := some ⟨false, 0⟩ }) ∧
    (s.rkv = false → exec .reinit s = .next { s with err := .noKey, resp := some ⟨false, 0⟩ })

/-- With the invariant, a REINIT after a key is a NOP that reports OK (42_key_expansion.md section 2; the spec marks it as derived). -/
def Obligations.ReinitIsNopThatReportsOk : Prop :=
  ∀ s : State, s.Inv → s.rkv = true → exec .reinit s = .next { s with err := .ok, resp := some ⟨false, 0⟩ }

/-- R510, R511: ENC_BLK puts Cipher(DIN) into DOUT, DEC_BLK InvCipher(DIN); NOKEY without a schedule. -/
def Obligations.BlockCipherResults : Prop :=
  ∀ s : State,
    (s.rkv = true →
      exec .encBlk s = .next { s with dout := cipher s.din s.rks, err := .ok, resp := some ⟨false, 0⟩ } ∧
      exec .decBlk s = .next { s with dout := invCipher s.din s.rks, err := .ok, resp := some ⟨false, 0⟩ }) ∧
    (s.rkv = false →
      exec .encBlk s = .next { s with err := .noKey, resp := some ⟨false, 0⟩ } ∧
      exec .decBlk s = .next { s with err := .noKey, resp := some ⟨false, 0⟩ })

/-- R552: PAD_ENC, byte by byte: block j of CBUF is Cipher of block j of the padded message; CTLEN is the padded length; no other
byte and no other register but ERR changes; NOKEY, then BUFOVF. -/
def Obligations.PadEncResult : Prop :=
  ∀ s : State,
    let l := s.msgLen.toNat
    let p := (l / 16 + 1) * 16
    (s.rkv = false → exec .padEnc s = .next { s with err := .noKey, resp := some ⟨false, 0⟩ }) ∧
    (s.rkv = true → 128 < p → exec .padEnc s = .next { s with err := .bufOvf, resp := some ⟨false, 0⟩ }) ∧
    (s.rkv = true → p ≤ 128 → ∃ t, exec .padEnc s = .next t ∧
      t = { s with mem := t.mem, ctLen := BitVec.ofNat 8 p, err := .ok, resp := some ⟨false, 0⟩ } ∧
      (∀ j < p / 16, t.bufBytes (0x300 + 16 * j) 16 =
        (cipher (Block.ofBytes fun k =>
          if 16 * j + k < l then s.bufByte (0x200 + (16 * j + k)) else BitVec.ofNat 8 (p - l)) s.rks).toList) ∧
      ∀ a, ¬(0x300 ≤ a ∧ a < 0x300 + p) → t.bufByte a = s.bufByte a)

/-- R554: DEC_UNPAD, byte by byte, with `d n` the n-th decrypted byte: the message and its 0x00 terminator in MBUF, its length in
MSGLEN, no other byte and no other register but ERR; NOKEY, then BADLEN, then INVPAD. -/
def Obligations.DecUnpadResult : Prop :=
  ∀ s : State,
    let c := s.ctLen.toNat
    let badLen := c = 0 ∨ c % 16 ≠ 0 ∨ c > 128
    let d := fun n : Nat =>
      (invCipher (Block.ofBytes fun k => s.bufByte (0x300 + (16 * (n / 16) + k))) s.rks).toList.getD (n % 16) 0
    let pv := (d (c - 1)).toNat
    (s.rkv = false → exec .decUnpad s = .next { s with err := .noKey, resp := some ⟨false, 0⟩ }) ∧
    (s.rkv = true → badLen → exec .decUnpad s = .next { s with err := .badLen, resp := some ⟨false, 0⟩ }) ∧
    (s.rkv = true → ¬badLen → (pv = 0 ∨ pv > 16) →
      exec .decUnpad s = .next { s with err := .invPad, resp := some ⟨false, 0⟩ }) ∧
    (s.rkv = true → ¬badLen → ¬(pv = 0 ∨ pv > 16) → ∃ t, exec .decUnpad s = .next t ∧
      t = { s with mem := t.mem, msgLen := BitVec.ofNat 8 (c - pv), err := .ok, resp := some ⟨false, 0⟩ } ∧
      (∀ n < c - pv, t.bufByte (0x200 + n) = d n) ∧ t.bufByte (0x200 + (c - pv)) = 0 ∧
      ∀ a, ¬(0x200 ≤ a ∧ a ≤ 0x200 + (c - pv)) → t.bufByte a = s.bufByte a)

/-- R402: the result code of every command, its conditions in the spec's order, and that a command that fails writes nothing but
ERR. -/
def Obligations.CommandResultPrecedence : Prop :=
  ∀ (s t : State) (i : Instr), isCommand i = true → exec i s = .next t →
    (t.err = match i with
      | .clrCnt ch => if ch.toNat < s.numChannels then .ok else .badCmd
      | .badCmd _ => .badCmd
      | .keyExpand => if s.quiescent then .ok else .keyLock
      | .reinit => if s.rkv then .ok else .noKey
      | .encBlk => if s.rkv then .ok else .noKey
      | .decBlk => if s.rkv then .ok else .noKey
      | .padEnc => if s.rkv = false then .noKey else if s.msgLen.toNat ≥ 128 then .bufOvf else .ok
      | .decUnpad =>
        if s.rkv = false then .noKey
        else if s.ctLen.toNat = 0 ∨ s.ctLen.toNat % 16 ≠ 0 ∨ s.ctLen.toNat > 128 then .badLen
        else if padAccepted s.plaintext then .ok else .invPad
      | _ => .ok) ∧
    (t.err ≠ .ok → t = { s with err := t.err, resp := some ⟨false, 0⟩ })

/-! ### Frames: who writes what -/

/-- What changes a channel, over every instruction (40_command_dispatch.md section 1, 45_framer_queue.md section 1): a command
changes the two counters of CLR_CNT's channel and nothing else of any channel. -/
def Obligations.ChannelStateWriters : Prop :=
  ∀ (s t : State) (i : Instr), exec i s = .next t →
    (isCommand i = true → ∀ ch : Nat, t.chans[ch]? = s.chans[ch]? ∨
      (i = .clrCnt (BitVec.ofNat 4 ch) ∧ t.chans[ch]? = s.chans[ch]?.map fun c : Channel => { c with qdrop := 0, txfail := 0 })) ∧
    (isCommand i = false → ∀ ch : Nat, t.chans[ch]? ≠ s.chans[ch]? →
      (∃ k b, i = .rxByte k b ∧ k.toNat = ch) ∨ i = .tick ∨ (∃ k f, i = .txDone k f ∧ k.toNat = ch) ∨
      (∃ k, i = .workerPop k ∧ k.toNat = ch) ∨ (∃ off v, i = .hostWr .word off v ∧ off.toNat = 0x100 + 0x10 * ch) ∨
      (∃ v, i = .hostWr .word 0 v ∧ decodeCmd s.numChannels v = .clrCnt (BitVec.ofNat 4 ch)) ∨ i = .reset)

/-- STATUS.ERR changes only by a command, or by reset (10_state.md R105, 40_command_dispatch.md R403). -/
def Obligations.ErrWriters : Prop :=
  ∀ (s t : State) (i : Instr), exec i s = .next t → t.err ≠ s.err →
    isCommand i = true ∨ (∃ v, i = .hostWr .word 0 v) ∨ i = .reset

/-- STATUS.RKV is set only by KEY_EXPAND and cleared only by reset; the schedule is written only by KEY_EXPAND, REINIT and reset, the
latched key only by KEY_EXPAND and reset (10_state.md R105, R120, R121). -/
def Obligations.KeyAndScheduleWriters : Prop :=
  ∀ (s t : State) (i : Instr), exec i s = .next t →
    let command := fun c : Command => i = c.toInstr ∨ ∃ v, i = .hostWr .word 0 v ∧ decodeCmd s.numChannels v = c
    (s.rkv = false → t.rkv = true → command .keyExpand) ∧
    (s.rkv = true → t.rkv = false → i = .reset) ∧
    (t.rks ≠ s.rks → command .keyExpand ∨ command .reinit ∨ i = .reset) ∧
    (t.keyLatched ≠ s.keyLatched → command .keyExpand ∨ i = .reset)

/-- Every byte of MBUF and CBUF, over every instruction: the byte at `a` changes only where PAD_ENC, DEC_UNPAD or a host write stores
to it, each at the offsets it stores to, or by the draw of a reset (20_memory.md R210; the addresses are R552's, R554's, R201's). -/
def Obligations.BufferWriters : Prop :=
  ∀ (s t : State) (i : Instr) (a : Nat), exec i s = .next t → t.bufByte a ≠ s.bufByte a →
    let command := fun c : Command => i = c.toInstr ∨ ∃ v, i = .hostWr .word 0 v ∧ decodeCmd s.numChannels v = c
    (command .padEnc ∧ cbufBase ≤ a ∧ a < cbufBase + padLen s.msgLen.toNat) ∨
    (command .decUnpad ∧ mbufBase ≤ a ∧ a ≤ mbufBase + (unpad s.plaintext).length) ∨
    (∃ off v, i = .hostWr .word off v ∧ isBuffer off.toNat = true ∧ off.toNat ≤ a ∧ a < off.toNat + 4) ∨
    i = .reset

/-- Who writes each data and control register, over every instruction (10_state.md R106 to R112). -/
def Obligations.DataRegisterWriters : Prop :=
  ∀ (s t : State) (i : Instr), exec i s = .next t → i ≠ .reset →
    let command := fun c : Command => i = c.toInstr ∨ ∃ v, i = .hostWr .word 0 v ∧ decodeCmd s.numChannels v = c
    let write := fun lo hi : Nat => ∃ off v, i = .hostWr .word off v ∧ lo ≤ off.toNat ∧ off.toNat < hi
    (t.thresh ≠ s.thresh → write 0x008 0x00C) ∧
    (t.msgLen ≠ s.msgLen → write 0x00C 0x010 ∨ command .decUnpad) ∧
    (t.ctLen ≠ s.ctLen → write 0x010 0x014 ∨ command .padEnc) ∧
    (t.key ≠ s.key → write 0x020 0x030) ∧
    (t.din ≠ s.din → write 0x030 0x040) ∧
    (t.dout ≠ s.dout → command .encBlk ∨ command .decBlk) ∧
    t.queueDepth = s.queueDepth ∧ t.chans.length = s.chans.length ∧ t.resets = s.resets ∧ t.pending = s.pending ∧
    t.clock = s.clock

/-- Events and consumer steps change channels alone: no status, no control or data register, no schedule, no byte of memory
(40_command_dispatch.md R403, 20_memory.md R210). -/
def Obligations.EventAndPopFrame : Prop :=
  ∀ (s t : State) (i : Instr),
    ((∃ ch b, i = .rxByte ch b) ∨ i = .tick ∨ (∃ ch f, i = .txDone ch f) ∨ (∃ e, i = .evReserved e) ∨ ∃ ch, i = .workerPop ch) →
    exec i s = .next t → t = { s with chans := t.chans } ∧ t.chans.length = s.chans.length ∧
      (∀ a, t.bufByte a = s.bufByte a) ∧ ∀ ch : Nat, t.chans[ch]?.map (fun c : Channel => (c.en, c.role, c.out)) =
        s.chans[ch]?.map fun c : Channel => (c.en, c.role, c.out)

/-! ### Events and the consumer -/

/-- R602, R604, R605: a byte on an enabled channel, by the index `i` it is stored at; at index 15 the frame is handed off, queued or
counted as dropped. On an absent or a disabled channel nothing changes. -/
def Obligations.RxByteOnChannel : Prop :=
  ∀ (s : State) (ch : BitVec 4) (b : Byte),
    (∀ c, s.chans[ch.toNat]? = some c → c.en = true →
      let i := if c.idle.toNat > s.thresh.toNat then 0 else c.fidx.toNat
      let f := c.fbuf.set i b
      let result := fun c' : Channel => exec (.rxByte ch b) s = .next { s with chans := s.chans.set ch.toNat c' }
      f.toList = c.fbuf.toList.set i b ∧
      (i ≠ 15 → result { c with fbuf := f, fidx := BitVec.ofNat 5 (i + 1), idle := 0 }) ∧
      (i = 15 → c.q.length < s.queueDepth → result { c with fbuf := f, fidx := 0, idle := 0, q := c.q ++ [f] }) ∧
      (i = 15 → s.queueDepth ≤ c.q.length →
        result { c with fbuf := f, fidx := 0, idle := 0, qdrop := BitVec.ofNat 16 (min (c.qdrop.toNat + 1) 0xFFFF) })) ∧
    ((s.numChannels ≤ ch.toNat ∨ ∃ c, s.chans[ch.toNat]? = some c ∧ c.en = false) → exec (.rxByte ch b) s = .next s)

/-- R603: TICK advances every channel's idle counter, saturating, and touches nothing else. -/
def Obligations.TickAdvancesIdle : Prop :=
  ∀ s : State, ∃ t, exec .tick s = .next t ∧ t = { s with chans := t.chans } ∧
    ∀ ch : Nat, t.chans[ch]? = s.chans[ch]?.map fun c : Channel => { c with idle := BitVec.ofNat 16 (min (c.idle.toNat + 1) 0xFFFF) }

/-- R608: TX_DONE ends the frame in HOLD and counts a failure; an answer to an idle or absent consumer changes nothing. -/
def Obligations.TxDoneAnswers : Prop :=
  ∀ (s : State) (ch : BitVec 4) (fail : Bool),
    (∀ c out data, s.chans[ch.toNat]? = some c → c.w = .hold out data →
      exec (.txDone ch fail) s = .next { s with chans := s.chans.set ch.toNat { c with
        txfail := if fail then BitVec.ofNat 16 (min (c.txfail.toNat + 1) 0xFFFF) else c.txfail, w := .idle } }) ∧
    ((s.numChannels ≤ ch.toNat ∨ ∃ c, s.chans[ch.toNat]? = some c ∧ c.w = .idle) → exec (.txDone ch fail) s = .next s)

/-- R308 and R602: an event word with a reserved kind or a broken constraint, and a byte on an absent or disabled channel, change no
state. -/
def Obligations.IgnoredEvents : Prop :=
  ∀ s : State,
    (∀ e : BitVec 16,
      (e.toNat / 4096 ≠ 1 ∧ e.toNat / 4096 ≠ 2 ∧ e.toNat / 4096 ≠ 3) ∨ (e.toNat / 4096 = 2 ∧ e.toNat % 4096 ≠ 0) ∨
        (e.toNat / 4096 = 3 ∧ e.toNat % 256 / 2 ≠ 0) ∨ (e.toNat / 4096 = 1 ∧ s.numChannels ≤ e.toNat / 256 % 16) →
      exec (decodeEv e) s = .next s) ∧
    (∀ e, exec (.evReserved e) s = .next s) ∧
    ∀ ch b, (s.numChannels ≤ ch.toNat ∨ ∃ c, s.chans[ch.toNat]? = some c ∧ c.en = false) → exec (.rxByte ch b) s = .next s

/-- R607: an enabled WORKER_POP takes the head frame, ciphers it by ROLE and holds it for OUT; EN is not read. -/
def Obligations.WorkerPopTakesHead : Prop :=
  ∀ (s : State) (ch : BitVec 4) (c : Channel) (f : Block) (rest : List Block),
    s.chans[ch.toNat]? = some c → c.w = .idle → c.q = f :: rest → s.rkv = true →
    exec (.workerPop ch) s = .next { s with chans := s.chans.set ch.toNat { c with
      q := rest, w := .hold c.out (if c.role = .encrypt then cipher f s.rks else invCipher f s.rks) } }

/-- A WORKER_POP that is not enabled has no step (45_framer_queue.md section 3); that the model's step then changes nothing is its own
convention (log entry 6). -/
def Obligations.WorkerPopNotEnabled : Prop :=
  ∀ (s : State) (ch : BitVec 4),
    (s.rkv = false ∨ s.numChannels ≤ ch.toNat ∨ ∃ c, s.chans[ch.toNat]? = some c ∧ (c.w ≠ .idle ∨ c.q = [])) →
    exec (.workerPop ch) s = .next s

/-! ### The host bus -/

/-- R201's map by its numbers: the register a 32-bit read at each offset reaches, `RegisterReadWords` saying what it reads as. A read at
any mapped offset answers the register's word and changes nothing else, so a second read answers the same (20_memory.md sections 1 and
2); the answer's place in State is the model's (log entry 7). -/
def Obligations.HostReadResult : Prop :=
  ∀ s : State,
    let answers := fun (n : Nat) (v : Word) =>
      ∃ t, exec (.hostRd .word (BitVec.ofNat 10 n)) s = .next t ∧ t = { s with resp := some ⟨false, v⟩ } ∧
        exec (.hostRd .word (BitVec.ofNat 10 n)) t = .next t
    (answers 0x000 (s.readReg .cmd) ∧ answers 0x004 (s.readReg .status) ∧ answers 0x008 (s.readReg .resync) ∧
      answers 0x00C (s.readReg .msgLen) ∧ answers 0x010 (s.readReg .ctLen) ∧ answers 0x014 (s.readReg .param)) ∧
    (∀ i : Fin 4, answers (0x020 + 4 * i) (s.readReg (.key i)) ∧ answers (0x030 + 4 * i) (s.readReg (.din i)) ∧
      answers (0x040 + 4 * i) (s.readReg (.dout i))) ∧
    (∀ ch < 16, ch < s.numChannels →
      answers (0x100 + 0x10 * ch) (s.readReg (.chCfg ch)) ∧ answers (0x104 + 0x10 * ch) (s.readReg (.chStat ch)) ∧
      answers (0x108 + 0x10 * ch) (s.readReg (.qdrop ch)) ∧ answers (0x10C + 0x10 * ch) (s.readReg (.txfail ch))) ∧
    (∀ i : Fin 32, answers (0x200 + 4 * i) (s.readReg (.mbuf i)) ∧ answers (0x300 + 4 * i) (s.readReg (.cbuf i))) ∧
    ∀ (off : BitVec 10) (r : Reg), regAt s.numChannels off.toNat = some r →
      ∃ t, exec (.hostRd .word off) s = .next t ∧ t = { s with resp := some ⟨false, s.readReg r⟩ } ∧ t.readReg r = s.readReg r ∧
        exec (.hostRd .word off) t = .next t

/-- What each register reads as, field by field, its reserved fields 0 and its write-only ones 0, in every state (10_state.md section 2;
the result codes by their numbers, 60_exceptions.md R702; byte lanes 20_memory.md R206: byte `4i + j` of an array is bits `8j+7 : 8j` of word `i`). -/
def Obligations.RegisterReadWords : Prop :=
  ∀ s : State,
    (let w := s.readReg .status
     w.extractLsb' 0 1 = BitVec.ofBool s.rkv ∧ w.extractLsb' 1 3 = 0 ∧ w.extractLsb' 4 4 = s.err.code ∧ w.extractLsb' 8 24 = 0 ∧
       w.extractLsb' 4 4 = match s.err with
         | .ok => 0
         | .badCmd => 1
         | .noKey => 2
         | .keyLock => 3
         | .bufOvf => 4
         | .badLen => 5
         | .invPad => 6) ∧
    ((s.readReg .resync).toNat = s.thresh.toNat ∧ (s.readReg .msgLen).toNat = s.msgLen.toNat ∧
      (s.readReg .ctLen).toNat = s.ctLen.toNat) ∧
    (let w := s.readReg .param
     w.extractLsb' 0 8 = BitVec.ofNat 8 s.numChannels ∧ w.extractLsb' 8 8 = BitVec.ofNat 8 s.queueDepth ∧
       w.extractLsb' 16 8 = 0x80 ∧ w.extractLsb' 24 8 = 0) ∧
    (s.readReg .cmd = 0 ∧ ∀ i, s.readReg (.key i) = 0) ∧
    (∀ i : Fin 4, Col.ofWord (s.readReg (.din i)) = s.din.col i ∧ Col.ofWord (s.readReg (.dout i)) = s.dout.col i ∧
      ∀ j < 4, (s.readReg (.din i)).extractLsb' (8 * j) 8 = s.din.toList.getD (4 * i + j) 0 ∧
        (s.readReg (.dout i)).extractLsb' (8 * j) 8 = s.dout.toList.getD (4 * i + j) 0) ∧
    (∀ (i : Fin 32), ∀ j < 4, (s.readReg (.mbuf i)).extractLsb' (8 * j) 8 = s.bufByte (0x200 + (4 * i + j)) ∧
      (s.readReg (.cbuf i)).extractLsb' (8 * j) 8 = s.bufByte (0x300 + (4 * i + j))) ∧
    (∀ ch c, s.chans[ch]? = some c →
      (let w := s.readReg (.chCfg ch)
       w.extractLsb' 0 1 = BitVec.ofBool c.en ∧ w.extractLsb' 1 1 = (if c.role = .encrypt then 0 else 1) ∧
         w.extractLsb' 2 2 = 0 ∧ w.extractLsb' 4 4 = c.out ∧ w.extractLsb' 8 24 = 0) ∧
      (let w := s.readReg (.chStat ch)
       w.extractLsb' 0 5 = c.fidx ∧ w.extractLsb' 5 3 = 0 ∧ w.extractLsb' 8 1 = (if c.w = .idle then 0 else 1) ∧
         w.extractLsb' 9 7 = 0 ∧ w.extractLsb' 16 8 = BitVec.ofNat 8 c.q.length ∧ w.extractLsb' 24 8 = 0) ∧
      (s.readReg (.qdrop ch)).toNat = c.qdrop.toNat ∧ (s.readReg (.txfail ch)).toNat = c.txfail.toNat)

/-- R202, R203: an access of another width, at an offset that is no multiple of 4, or at an unmapped offset is a bus error: data 0,
no state change. -/
def Obligations.BusErrorsChangeNothing : Prop :=
  ∀ (s : State) (size : AccessSize) (off : BitVec 10) (v : Word),
    (size ≠ .word ∨ off.toNat % 4 ≠ 0 ∨ unmapped s.numChannels off.toNat) →
    exec (.hostRd size off) s = .next { s with resp := some ⟨true, 0⟩ } ∧
    exec (.hostWr size off v) s = .next { s with resp := some ⟨true, 0⟩ }

/-- R204: a write-only register reads 0 with an OK response; a write to a read-only register is ignored with an OK response. -/
def Obligations.WriteOnlyAndReadOnly : Prop :=
  ∀ (s : State) (off : BitVec 10) (v : Word),
    (off.toNat % 4 = 0 → (off.toNat = 0 ∨ (0x020 ≤ off.toNat ∧ off.toNat < 0x030)) →
      exec (.hostRd .word off) s = .next { s with resp := some ⟨false, 0⟩ }) ∧
    (off.toNat % 4 = 0 →
      (off.toNat = 0x004 ∨ off.toNat = 0x014 ∨ (0x040 ≤ off.toNat ∧ off.toNat < 0x050) ∨
        (0x100 ≤ off.toNat ∧ off.toNat < 0x200 ∧ off.toNat < 0x100 + 0x10 * s.numChannels ∧ off.toNat % 0x10 ≠ 0)) →
      exec (.hostWr .word off v) s = .next { s with resp := some ⟨false, 0⟩ })

/-- A write of RESYNC, MSGLEN, CTLEN, KEY or DIN stores its fields and does nothing else (20_memory.md section 2); the last clause says
by bytes what replacing a word of a 16-byte array is. -/
def Obligations.HostWriteStores : Prop :=
  ∀ (s : State) (v : Word),
    exec (.hostWr .word 0x008 v) s = .next { s with thresh := v.extractLsb' 0 16, resp := some ⟨false, 0⟩ } ∧
    exec (.hostWr .word 0x00C v) s = .next { s with msgLen := v.extractLsb' 0 8, resp := some ⟨false, 0⟩ } ∧
    exec (.hostWr .word 0x010 v) s = .next { s with ctLen := v.extractLsb' 0 8, resp := some ⟨false, 0⟩ } ∧
    ∀ i : Fin 4,
      let bytes : Col := ⟨v.extractLsb' 0 8, v.extractLsb' 8 8, v.extractLsb' 16 8, v.extractLsb' 24 8⟩
      exec (.hostWr .word (BitVec.ofNat 10 (0x020 + 4 * i)) v) s =
        .next { s with key := s.key.setCol i bytes, resp := some ⟨false, 0⟩ } ∧
      exec (.hostWr .word (BitVec.ofNat 10 (0x030 + 4 * i)) v) s =
        .next { s with din := s.din.setCol i bytes, resp := some ⟨false, 0⟩ } ∧
      ∀ (b : Block), ∀ k < 16, (b.setCol i bytes).toList.getD k 0 =
        if k / 4 = i then v.extractLsb' (8 * (k % 4)) 8 else b.toList.getD k 0

/-- A word written to MBUFi or CBUFi lands in bytes 4i..4i+3, least significant byte first (20_memory.md R206), changes no other byte
and no other register, and reads back. -/
def Obligations.BufferWordLanes : Prop :=
  ∀ (s : State) (v : Word) (i : Fin 32) (base : Nat), base = 0x200 ∨ base = 0x300 →
    let off := BitVec.ofNat 10 (base + 4 * i)
    ∃ t, exec (.hostWr .word off v) s = .next t ∧ t = { s with mem := t.mem, resp := some ⟨false, 0⟩ } ∧
      (∀ j < 4, t.bufByte (base + 4 * i + j) = v.extractLsb' (8 * j) 8) ∧
      (∀ a, ¬(base + 4 * i ≤ a ∧ a < base + 4 * i + 4) → t.bufByte a = s.bufByte a) ∧
      exec (.hostRd .word off) t = .next { t with resp := some ⟨false, v⟩ }

/-- R601: a CHCFG write: ROLE, OUT, EN only with a schedule, and a cleared EN discards the partial frame; the queue and the consumer
are not changed. -/
def Obligations.ChcfgWrite : Prop :=
  ∀ (s : State) (ch : Nat) (c : Channel) (v : Word), ch < 16 → s.chans[ch]? = some c →
    let newEn := v.getLsbD 0 && s.rkv
    exec (.hostWr .word (BitVec.ofNat 10 (0x100 + 0x10 * ch)) v) s = .next { s with
      chans := s.chans.set ch { c with
        en := newEn, role := if v.getLsbD 1 then .decrypt else .encrypt, out := v.extractLsb' 4 4,
        fidx := if c.en = true ∧ newEn = false then 0 else c.fidx },
      resp := some ⟨false, 0⟩ }

/-- R400: a host write of CMD executes the command its value decodes to, in that one step; a host write of CMD decodes to it. -/
def Obligations.CmdWriteExecutesCommand : Prop :=
  ∀ (s : State) (v : Word),
    exec (.hostWr .word 0 v) s = exec (decodeCmd s.numChannels v).toInstr s ∧
    decodeStimulus s.numChannels (.hostWrite .word 0 v) = (decodeCmd s.numChannels v).toInstr

/-- R478: the answer to a host access, read or write, does not depend on KEY, the latched key or the schedule, and a read leaves them;
KEY reads 0. -/
def Obligations.KeyNotReadable : Prop :=
  ∀ (s : State) (key latched : Block) (rks : Schedule) (size : AccessSize) (off : BitVec 10),
    let s' := { s with key := key, keyLatched := latched, rks := rks }
    (∃ resp,
      exec (.hostRd size off) s = .next { s with resp := resp } ∧ exec (.hostRd size off) s' = .next { s' with resp := resp } ∧
      (size = .word → off.toNat % 4 = 0 → 0x020 ≤ off.toNat → off.toNat < 0x030 → resp = some ⟨false, 0⟩)) ∧
    ∀ v, ∃ t t', exec (.hostWr size off v) s = .next t ∧ exec (.hostWr size off v) s' = .next t' ∧ t'.resp = t.resp

/-! ### Whole-channel properties -/

/-- A channel's event, consumer step or CHCFG write leaves every other channel alone, and its effect on its own does not depend on them
(45_framer_queue.md section 1; TICK is the exception, R603). -/
def Obligations.ChannelsIndependent : Prop :=
  ∀ (s s' t t' : State) (i : Instr) (ch : BitVec 4),
    ((∃ b, i = .rxByte ch b) ∨ (∃ f, i = .txDone ch f) ∨ i = .workerPop ch ∨
      ∃ v, i = .hostWr .word (BitVec.ofNat 10 (0x100 + 0x10 * ch.toNat)) v) →
    exec i s = .next t →
    (∀ k, k ≠ ch.toNat → t.chans[k]? = s.chans[k]?) ∧
    (s'.chans[ch.toNat]? = s.chans[ch.toNat]? → s'.thresh = s.thresh → s'.queueDepth = s.queueDepth → s'.rkv = s.rkv →
      s'.rks = s.rks → exec i s' = .next t' → t'.chans[ch.toNat]? = t.chans[ch.toNat]?)

/-- Events and consumer steps of two different channels commute: their order changes neither the end state nor the outputs
(45_framer_queue.md section 4; the spec marks it as derived). -/
def Obligations.DifferentChannelsCommute : Prop :=
  ∀ (s : State) (i j : Instr) (ch ch' : BitVec 4), ch ≠ ch' →
    ((∃ b, i = .rxByte ch b) ∨ (∃ f, i = .txDone ch f) ∨ i = .workerPop ch) →
    ((∃ b, j = .rxByte ch' b) ∨ (∃ f, j = .txDone ch' f) ∨ j = .workerPop ch') →
    execAll [i, j] s = execAll [j, i] s

/-- Sixteen bytes received with no gap, from an empty index, are one frame of those bytes in order, queued
(45_framer_queue.md section 2). -/
def Obligations.SixteenBytesCompleteFrame : Prop :=
  ∀ (s : State) (ch : BitVec 4) (c : Channel) (bs : List Byte),
    s.chans[ch.toNat]? = some c → c.en = true → c.fidx = 0 → c.q.length < s.queueDepth → bs.length = 16 →
    let f := Block.ofBytes fun k => bs.getD k 0
    execAll (bs.map (.rxByte ch)) s =
      .next { s with chans := s.chans.set ch.toNat { c with fbuf := f, fidx := 0, idle := 0, q := c.q ++ [f] } }

/-- Overflow: of the frames handed off to an empty queue with no pop, the first QUEUE_DEPTH are queued in order and every later one
is counted as dropped (45_framer_queue.md section 4; the spec marks it as derived). -/
def Obligations.OverflowDropsExcess : Prop :=
  ∀ (depth : Nat) (c : Channel) (fs : List Block), c.q = [] →
    fs.foldl (fun c f => c.handoff depth f) c =
      { c with q := fs.take depth, qdrop := BitVec.ofNat 16 (min (c.qdrop.toNat + (fs.length - depth)) 0xFFFF) }

/-- The frame buffer's bytes at and above the write index are unobservable (10_state.md R123): two states that differ in those alone
still do after any instruction, so no register, queue, result or response shows them. -/
def Obligations.FrameBufferUnobservable : Prop :=
  ∀ (s s' t t' : State) (i : Instr), s.Agree s' → exec i s = .next t → exec i s' = .next t' → t.Agree t'

/-- R214: the transmit request of a channel is presented exactly while its consumer is in HOLD, with its output and data; there is none,
of this or any other channel's number, where the channel is absent or its consumer IDLE. -/
def Obligations.TransmitPort : Prop :=
  ∀ (s : State) (ch : Nat),
    (∀ out data, s.txRequest ch = some ⟨ch, out, data⟩ ↔ ∃ c, s.chans[ch]? = some c ∧ c.w = .hold out data) ∧
    (s.txRequest ch = none ↔ s.numChannels ≤ ch ∨ ∃ c, s.chans[ch]? = some c ∧ c.w = .idle)

/-! ### The cipher -/

/-- The rounds of Cipher and InvCipher, with RK(r) the words 4r to 4r + 3 of the schedule: RK(0), nine full rounds, the last round with
RK(10); the inverse in reverse (43_round_transforms.md section 2, 42_key_expansion.md section 1; `TransformsByIndex` fixes the
transforms). Decryption inverts encryption and encryption inverts decryption, for every block and schedule (the spec marks it as
derived). -/
def Obligations.CipherRoundTrip : Prop :=
  ∀ (b : Block) (rks : Schedule),
    let rk : Fin 11 → Block := fun r => ⟨rks.word ⟨4 * r, by omega⟩, rks.word ⟨4 * r + 1, by omega⟩, rks.word ⟨4 * r + 2, by omega⟩,
      rks.word ⟨4 * r + 3, by omega⟩⟩
    (let first := addRoundKey b (rk 0)
     let full := [1, 2, 3, 4, 5, 6, 7, 8, 9].foldl (fun x r => addRoundKey (mixColumns (shiftRows (subBytes x))) (rk r)) first
     cipher b rks = addRoundKey (shiftRows (subBytes full)) (rk 10)) ∧
    (let first := addRoundKey b (rk 10)
     let full := [9, 8, 7, 6, 5, 4, 3, 2, 1].foldl
       (fun x r => invMixColumns (addRoundKey (invSubBytes (invShiftRows x)) (rk r))) first
     invCipher b rks = addRoundKey (invSubBytes (invShiftRows full)) (rk 0)) ∧
    invCipher (cipher b rks) rks = b ∧ cipher (invCipher b rks) rks = b

/-- The 44 words of the schedule, byte by byte (42_key_expansion.md section 1, 41_tables_gf.md section 3): the first four are the key's,
each later one is the word four back exclusive-or the previous word, which every fourth time is rotated by one byte towards byte 0,
substituted, and changed by RCON[i div 4] in byte 0. RCON is the spec's eleven values, each after the sentinel xtime of the one before. -/
def Obligations.KeyExpansionRecurrence : Prop :=
  ∀ key : Block,
    let w := (keyExpansion key).word
    let rconValues : List Byte := [0x8D, 0x01, 0x02, 0x04, 0x08, 0x10, 0x20, 0x40, 0x80, 0x1B, 0x36]
    (∀ i : Fin 4, w ⟨i, by omega⟩ = key.col i) ∧
    (∀ (i : Nat) (h : i < 44) (_ : 4 ≤ i),
      let q := w ⟨i - 4, by omega⟩
      let p := w ⟨i - 1, by omega⟩
      let t : Col :=
        if i % 4 = 0 then ⟨sbox p.b1 ^^^ rconValues.getD (i / 4) 0, sbox p.b2, sbox p.b3, sbox p.b0⟩ else p
      w ⟨i, h⟩ = ⟨q.b0 ^^^ t.b0, q.b1 ^^^ t.b1, q.b2 ^^^ t.b2, q.b3 ^^^ t.b3⟩) ∧
    (∀ i < 11, rcon i = rconValues.getD i 0) ∧ (rcon 1 = 1 ∧ ∀ i < 10, rcon (i + 1) = xtime (rcon i)) ∧
    ∀ x : Col, rotWord x = ⟨x.b1, x.b2, x.b3, x.b0⟩ ∧ subWord x = ⟨sbox x.b0, sbox x.b1, sbox x.b2, sbox x.b3⟩

/-- The inverse transforms invert the transforms, both ways (43_round_transforms.md section 1; the spec marks it as derived). -/
def Obligations.TransformsInvert : Prop :=
  ∀ s k : Block,
    invSubBytes (subBytes s) = s ∧ subBytes (invSubBytes s) = s ∧
    invShiftRows (shiftRows s) = s ∧ shiftRows (invShiftRows s) = s ∧
    invMixColumns (mixColumns s) = s ∧ mixColumns (invMixColumns s) = s ∧
    addRoundKey (addRoundKey s k) k = s

/-- The multiplier: doubling modulo 0x11B, multiplication by repeated doubling, and the laws of a field (41_tables_gf.md section 1; the
spec marks the laws as derived). -/
def Obligations.MultiplierLaws : Prop :=
  ∀ a b c : Byte,
    xtime a = (if a.toNat < 128 then BitVec.ofNat 8 (2 * a.toNat) else BitVec.ofNat 8 (2 * a.toNat) ^^^ 0x1B) ∧
    gmul a b = (List.range 8).foldl (fun r i => if b.getLsbD i then r ^^^ xtime^[i] a else r) 0 ∧
    gmul a 1 = a ∧ gmul a 2 = xtime a ∧ gmul a 3 = xtime a ^^^ a ∧
    gmul a b = gmul b a ∧ gmul a (gmul b c) = gmul (gmul a b) c ∧ gmul a (b ^^^ c) = gmul a b ^^^ gmul a c ∧
    (gmul a b = 0 ↔ a = 0 ∨ b = 0) ∧ (a ≠ 0 → (gmul a b = 1 ↔ b = ginv a)) ∧ ginv 0 = 0

/-- Every entry of SBOX is the affine image of the inverse, the rotations of a byte written out; INV_SBOX inverts it (41_tables_gf.md
section 2). -/
def Obligations.SboxDefinition : Prop :=
  ∀ a : Byte,
    (let b := ginv a
     let rot := fun n : Nat => (b <<< n) ||| (b >>> (8 - n))
     sbox a = b ^^^ rot 1 ^^^ rot 2 ^^^ rot 3 ^^^ rot 4 ^^^ 0x63) ∧
    (∀ n, 1 ≤ n → n ≤ 4 → rotl8 a n = (a <<< n) ||| (a >>> (8 - n))) ∧ invSbox (sbox a) = a ∧ sbox (invSbox a) = a

/-- R500 to R506: each round transform by byte index, byte `k = r + 4c` being element `[r][c]`. -/
def Obligations.TransformsByIndex : Prop :=
  ∀ s key : Block,
    let at_ := fun (x : Block) (r c : Nat) => x.toList.getD (r + 4 * c) 0
    ∀ r < 4, ∀ c < 4,
      at_ (subBytes s) r c = sbox (at_ s r c) ∧ at_ (invSubBytes s) r c = invSbox (at_ s r c) ∧
      at_ (shiftRows s) r c = at_ s r ((c + r) % 4) ∧ at_ (invShiftRows s) r c = at_ s r ((c + 4 - r) % 4) ∧
      at_ (mixColumns s) r c =
        gmul (at_ s r c) 2 ^^^ gmul (at_ s ((r + 1) % 4) c) 3 ^^^ at_ s ((r + 2) % 4) c ^^^ at_ s ((r + 3) % 4) c ∧
      at_ (invMixColumns s) r c =
        gmul (at_ s r c) 0x0E ^^^ gmul (at_ s ((r + 1) % 4) c) 0x0B ^^^ gmul (at_ s ((r + 2) % 4) c) 0x0D ^^^
          gmul (at_ s ((r + 3) % 4) c) 0x09 ∧
      at_ (addRoundKey s key) r c = at_ s r c ^^^ at_ key r c

/-! ### Padding -/

/-- R550, R551: the padded length and the padded message. -/
def Obligations.PaddingArithmetic : Prop :=
  ∀ m : List Byte,
    let p := padLen m.length
    p = (m.length / 16 + 1) * 16 ∧ p % 16 = 0 ∧ 16 ≤ p ∧ 1 ≤ p - m.length ∧ p - m.length ≤ 16 ∧
    (p ≤ 128 ↔ m.length ≤ 127) ∧ (pad m).length = p ∧ (pad m).take m.length = m ∧
    ∀ b ∈ (pad m).drop m.length, b.toNat = p - m.length

/-- PAD_ENC then DEC_UNPAD gives the message back, for every message of 0 to 127 bytes (44_padding.md section 2; the spec marks it as
derived). -/
def Obligations.PaddingRoundTrip : Prop :=
  ∀ s : State, s.rkv = true → s.msgLen.toNat ≤ 127 →
    ∃ u, execAll [.padEnc, .decUnpad] s = .next u ∧ u.err = .ok ∧ u.msgLen = s.msgLen ∧
      (∀ k < s.msgLen.toNat, u.bufByte (0x200 + k) = s.bufByte (0x200 + k)) ∧ u.bufByte (0x200 + s.msgLen.toNat) = 0
end

