-- ==== Sys2Proof/Laws/Bytes.lean ====
section
/-! SUPPORT. The laws of bytes, columns and blocks. -/

namespace Sys2Proof

@[simp] theorem Col.length_toList (c : Col) : c.toList.length = 4 := rfl
@[simp] theorem Block.length_toList (b : Block) : b.toList.length = 16 := rfl

/-- The bytes of a column survive the trip through a register word (R206). -/
@[simp] theorem Col.ofWord_toWord (c : Col) : Col.ofWord c.toWord = c := by
  obtain ⟨a, b, d, e⟩ := c
  simp only [Col.toWord, Col.ofWord, Col.mk.injEq]
  refine ⟨?_, ?_, ?_, ?_⟩ <;>
  · apply BitVec.eq_of_getLsbD_eq
    intro i hi
    simp only [BitVec.getLsbD_extractLsb', BitVec.getLsbD_append]
    interval_cases i <;> simp

/-- A register word survives the trip through its bytes (R206). -/
@[simp] theorem Col.toWord_ofWord (v : Word) : (Col.ofWord v).toWord = v := by
  apply BitVec.eq_of_getLsbD_eq
  intro i hi
  simp only [Col.toWord, Col.ofWord, BitVec.getLsbD_extractLsb', BitVec.getLsbD_append]
  interval_cases i <;> simp

/-- Byte lane `j` of a register word is byte `j` of its column (R206). -/
theorem Col.lane_toWord (c : Col) {j : Nat} (h : j < 4) : c.toWord.extractLsb' (8 * j) 8 = c.toList.getD j 0 := by
  obtain ⟨a, b, d, e⟩ := c
  interval_cases j <;>
  · simp only [Col.toWord, Col.toList]
    apply BitVec.eq_of_getLsbD_eq
    intro i hi
    simp only [BitVec.getLsbD_extractLsb', BitVec.getLsbD_append]
    interval_cases i <;> simp

/-- Replacing a byte of a block, by position; a position above 15 has no byte. -/
theorem Block.toList_set (b : Block) (k : Nat) (v : Byte) : (b.set k v).toList = b.toList.set k v := by
  by_cases h : k < 16
  · interval_cases k <;> rfl
  · have hb : b.set k v = b := by
      unfold Block.set
      split <;> first | omega | rfl
    rw [hb, List.set_eq_of_length_le (by rw [Block.length_toList]; omega)]

@[simp] theorem Block.col_setCol_same (b : Block) (i : Fin 4) (c : Col) : (b.setCol i c).col i = c := by
  fin_cases i <;> rfl

theorem Block.col_setCol_other (b : Block) {i j : Fin 4} (c : Col) (h : j ≠ i) : (b.setCol i c).col j = b.col j := by
  fin_cases i <;> fin_cases j <;> first | rfl | exact absurd rfl h

/-- Element `[r][c]` of a block made by elements. -/
@[simp] theorem Block.cell_ofCells (f : Fin 4 → Fin 4 → Byte) (r c : Fin 4) : (Block.ofCells f).cell r c = f r c := by
  fin_cases c <;> fin_cases r <;> rfl

/-- A block is determined by its elements. -/
theorem Block.ext_cell {a b : Block} (h : ∀ r c, a.cell r c = b.cell r c) : a = b := by
  obtain ⟨⟨_, _, _, _⟩, ⟨_, _, _, _⟩, ⟨_, _, _, _⟩, ⟨_, _, _, _⟩⟩ := a
  obtain ⟨⟨_, _, _, _⟩, ⟨_, _, _, _⟩, ⟨_, _, _, _⟩, ⟨_, _, _, _⟩⟩ := b
  simp only [Block.mk.injEq, Col.mk.injEq]
  exact ⟨⟨h 0 0, h 1 0, h 2 0, h 3 0⟩, ⟨h 0 1, h 1 1, h 2 1, h 3 1⟩, ⟨h 0 2, h 1 2, h 2 2, h 3 2⟩, ⟨h 0 3, h 1 3, h 2 3, h 3 3⟩⟩

/-- The bytes of a block given byte by byte. -/
theorem Block.toList_ofBytes (f : Nat → Byte) : (Block.ofBytes f).toList = (List.range 16).map f := rfl

/-- A block is the block of its bytes. -/
@[simp] theorem Block.ofBytes_toList (b : Block) : (Block.ofBytes fun k => b.toList.getD k 0) = b := rfl

@[simp] theorem Block.xor_xor_cancel (a b : Block) : (a.xor b).xor b = a := by
  simp only [Block.xor, Col.xor, BitVec.xor_assoc, BitVec.xor_self, BitVec.xor_zero]

/-- The 16 bytes of a byte sequence from `16 j` on, as a block and back. -/
theorem toList_blockAt (m : List Byte) (j : Nat) (h : 16 * j + 16 ≤ m.length) :
    (blockAt m j).toList = (m.drop (16 * j)).take 16 := by
  apply List.ext_getElem
  · simp only [Block.length_toList, List.length_take, List.length_drop]
    omega
  · intro i h1 h2
    simp only [Block.length_toList] at h1
    rw [List.getElem_take, List.getElem_drop]
    simp only [blockAt, Block.toList_ofBytes, List.getElem_map, List.getElem_range]
    exact List.getD_eq_getElem m 0 (by omega)

theorem length_flatMap_blocks (n : Nat) (g : Nat → Block) :
    ((List.range n).flatMap fun j => (g j).toList).length = 16 * n := by
  induction n with
  | zero => rfl
  | succ n ih => rw [List.range_succ, List.flatMap_append]; simp [ih]; omega

@[simp] theorem length_mapBlocks (f : Block → Block) (m : List Byte) : (mapBlocks f m).length = 16 * (m.length / 16) :=
  length_flatMap_blocks _ _

/-- Block `j` of a sequence of blocks. -/
theorem blockAt_flatMap (n : Nat) (g : Nat → Block) (j : Nat) (h : j < n) :
    blockAt ((List.range n).flatMap fun j => (g j).toList) j = g j := by
  induction n with
  | zero => omega
  | succ n ih =>
    rw [List.range_succ, List.flatMap_append]
    have hlen := length_flatMap_blocks n g
    by_cases hj : j = n
    · subst hj
      refine Eq.trans ?_ (Block.ofBytes_toList (g j))
      simp only [blockAt]
      congr 1
      funext k
      rw [List.getD_append_right _ _ _ _ (by omega), hlen, Nat.add_sub_cancel_left]
      simp
    · rw [← ih (by omega)]
      simp only [blockAt, Block.ofBytes]
      have hk : ∀ k < 16, 16 * j + k < ((List.range n).flatMap fun j => (g j).toList).length := by omega
      rw [List.getD_append _ _ _ _ (hk 0 (by omega)), List.getD_append _ _ _ _ (hk 1 (by omega)),
        List.getD_append _ _ _ _ (hk 2 (by omega)), List.getD_append _ _ _ _ (hk 3 (by omega)),
        List.getD_append _ _ _ _ (hk 4 (by omega)), List.getD_append _ _ _ _ (hk 5 (by omega)),
        List.getD_append _ _ _ _ (hk 6 (by omega)), List.getD_append _ _ _ _ (hk 7 (by omega)),
        List.getD_append _ _ _ _ (hk 8 (by omega)), List.getD_append _ _ _ _ (hk 9 (by omega)),
        List.getD_append _ _ _ _ (hk 10 (by omega)), List.getD_append _ _ _ _ (hk 11 (by omega)),
        List.getD_append _ _ _ _ (hk 12 (by omega)), List.getD_append _ _ _ _ (hk 13 (by omega)),
        List.getD_append _ _ _ _ (hk 14 (by omega)), List.getD_append _ _ _ _ (hk 15 (by omega))]

/-- Block `j` of a sequence taken through `f` is `f` of block `j` (R552, R554). -/
theorem blockAt_mapBlocks (f : Block → Block) (m : List Byte) (j : Nat) (h : j < m.length / 16) :
    blockAt (mapBlocks f m) j = f (blockAt m j) := blockAt_flatMap _ _ _ h

/-- Taking a whole number of blocks through two functions is taking it through their composition. -/
theorem mapBlocks_mapBlocks (f g : Block → Block) (m : List Byte) :
    mapBlocks f (mapBlocks g m) = mapBlocks (fun b => f (g b)) m := by
  have h : (mapBlocks g m).length / 16 = m.length / 16 := by
    rw [length_mapBlocks]
    omega
  unfold mapBlocks at h ⊢
  rw [h]
  simp only [List.flatMap_def]
  congr 1
  refine List.map_congr_left fun j hj => ?_
  rw [← List.flatMap_def, blockAt_flatMap _ _ _ (List.mem_range.1 hj)]

end Sys2Proof
end

