-- ==== Sys2Proof/Laws/Channels.lean ====
section
/-! SUPPORT. What the shared operations over channels can do, each said once. -/

namespace Sys2Proof.Machine

@[simp] theorem State.numChannels_modifyChan (s : State) (ch : Nat) (f : Channel → Channel) :
    (s.modifyChan ch f).numChannels = s.numChannels := by
  simp [State.numChannels, State.modifyChan]

/-- Changing an existing channel. -/
theorem State.modifyChan_eq_set {s : State} {ch : Nat} {c : Channel} (h : s.chans[ch]? = some c) (f : Channel → Channel) :
    s.modifyChan ch f = { s with chans := s.chans.set ch (f c) } := by
  simp [State.modifyChan, List.modify_eq_set_getElem?, h]

/-- Changing a channel that does not exist changes nothing. -/
theorem State.modifyChan_none {s : State} {ch : Nat} (h : s.chans[ch]? = none) (f : Channel → Channel) :
    s.modifyChan ch f = s := by
  have : s.chans.modify ch f = s.chans := by simp [List.modify_eq_set_getElem?, h]
  simp [State.modifyChan, this]

/-- The channel changed. -/
theorem State.chan_modifyChan_same (s : State) (ch : Nat) (f : Channel → Channel) :
    (s.modifyChan ch f).chans[ch]? = s.chans[ch]?.map f := by
  simp [State.modifyChan]

/-- Every other channel is left alone (R600). -/
theorem State.chan_modifyChan_other (s : State) {ch ch' : Nat} (f : Channel → Channel) (h : ch' ≠ ch) :
    (s.modifyChan ch f).chans[ch']? = s.chans[ch']? := by
  simp [State.modifyChan, Ne.symm h]

/-- Every channel after a change of one: one of the channels before, or one of them changed. -/
theorem State.mem_modifyChan {s : State} {ch : Nat} {f : Channel → Channel} {c : Channel}
    (h : c ∈ (s.modifyChan ch f).chans) : ∃ c₀ ∈ s.chans, c = c₀ ∨ c = f c₀ := by
  obtain ⟨i, hi⟩ := List.mem_iff_getElem?.1 h
  by_cases hc : i = ch
  · subst hc
    rw [State.chan_modifyChan_same] at hi
    obtain ⟨c₀, h₀, rfl⟩ := Option.map_eq_some_iff.1 hi
    exact ⟨c₀, List.mem_of_getElem? h₀, .inr rfl⟩
  · rw [State.chan_modifyChan_other _ _ hc] at hi
    exact ⟨c, List.mem_of_getElem? hi, .inl rfl⟩

/-- Changes of two different channels commute. -/
theorem State.modifyChan_comm (s : State) {i j : Nat} (f g : Channel → Channel) (h : i ≠ j) :
    (s.modifyChan i f).modifyChan j g = (s.modifyChan j g).modifyChan i f := by
  have : (s.chans.modify i f).modify j g = (s.chans.modify j g).modify i f := by
    apply List.ext_getElem?
    intro k
    simp only [List.getElem?_modify]
    by_cases hi : i = k <;> by_cases hj : j = k <;> simp [hi, hj]
    omega
  simp [State.modifyChan, this]

/-- Hand-off (R604, R605): the frame is queued, or counted as dropped. -/
theorem Channel.handoff_cases (depth : Nat) (f : Block) (c : Channel) :
    (c.q.length < depth ∧ c.handoff depth f = { c with q := c.q ++ [f] }) ∨
    (depth ≤ c.q.length ∧ c.handoff depth f = { c with qdrop := satInc c.qdrop }) := by
  by_cases h : c.q.length < depth
  · exact .inl ⟨h, by simp [Channel.handoff, h]⟩
  · exact .inr ⟨by omega, by simp [Channel.handoff, h, Channel.dropFull]⟩

/-- RX_BYTE on its channel (R602): ignored, stored, or the sixteenth byte of a frame that is handed off. -/
theorem Channel.rxByte_cases (thresh : BitVec 16) (depth : Nat) (b : Byte) (c : Channel) :
    (c.en = false ∧ c.rxByte thresh depth b = c) ∨
    (c.en = true ∧ c.rxIndex thresh ≠ 15 ∧
      c.rxByte thresh depth b =
        { c with fbuf := c.fbuf.set (c.rxIndex thresh).toNat b, fidx := c.rxIndex thresh + 1, idle := 0 }) ∨
    (c.en = true ∧ c.rxIndex thresh = 15 ∧
      c.rxByte thresh depth b =
        { ({ c with fbuf := c.fbuf.set 15 b, fidx := 16, idle := 0 } : Channel).handoff depth (c.fbuf.set 15 b) with fidx := 0 }) := by
  cases he : c.en with
  | false => exact .inl ⟨rfl, by simp [Channel.rxByte, he]⟩
  | true =>
    refine .inr ?_
    by_cases hi : c.rxIndex thresh = 15
    · exact .inr ⟨rfl, hi, by simp [Channel.rxByte, he, hi]⟩
    · refine .inl ⟨rfl, hi, ?_⟩
      have h16 : c.rxIndex thresh + 1 ≠ 16 := by
        intro h
        apply hi
        bv_omega
      simp only [Channel.rxByte, he, if_true]
      rw [if_neg h16]

/-- TX_DONE on its channel (R608): an unsolicited answer, or the end of the frame in HOLD. -/
theorem Channel.txDone_cases (fail : Bool) (c : Channel) :
    (c.w = .idle ∧ c.txDone fail = c) ∨
    ((∃ out data, c.w = .hold out data) ∧
      c.txDone fail = { c with txfail := if fail then satInc c.txfail else c.txfail, w := .idle }) := by
  unfold Channel.txDone
  split
  · exact .inl ⟨‹_›, rfl⟩
  · exact .inr ⟨⟨_, _, ‹_›⟩, rfl⟩

/-- WORKER_POP on its channel (R607): not enabled, or the head frame ciphered into HOLD. -/
theorem Channel.pop_cases (rkv : Bool) (rks : Schedule) (c : Channel) :
    ((rkv = false ∨ c.w ≠ .idle ∨ c.q = []) ∧ c.pop rkv rks = c) ∨
    (∃ f rest, rkv = true ∧ c.w = .idle ∧ c.q = f :: rest ∧
      c.pop rkv rks = { c with q := rest, w := .hold c.out (c.role.apply f rks) }) := by
  cases rkv with
  | false => exact .inl ⟨.inl rfl, rfl⟩
  | true =>
    obtain ⟨en, role, out, fbuf, fidx, idle, q, w, qd, tf⟩ := c
    cases w with
    | hold o d => exact .inl ⟨.inr (.inl (by simp)), rfl⟩
    | idle =>
      cases q with
      | nil => exact .inl ⟨.inr (.inr rfl), rfl⟩
      | cons f rest => exact .inr ⟨f, rest, rfl, rfl, rfl, rfl⟩

/-- Quiescence (R407), channel by channel. -/
theorem State.quiescent_iff (s : State) :
    s.quiescent = true ↔ ∀ c ∈ s.chans, c.en = false ∧ c.q = [] ∧ c.w = .idle := by
  simp [State.quiescent]

end Sys2Proof.Machine
end

