-- ==== Sys2Proof/Laws/Memory.lean ====
section
/-! SUPPORT. The laws of the memory: a read after a write, the canonical form, and the buffers' bytes. -/

namespace Sys2Proof.Machine

/-- A read at the written offset gives the byte written. -/
@[simp] theorem Memory.read_write_same (m : Memory) (a : Nat) (b : Byte) : (m.write a b).read a = some b := by
  induction m with
  | nil => simp [Memory.write, Memory.read]
  | cons x m ih =>
    obtain ⟨k, v⟩ := x
    simp only [Memory.write]
    split
    · simp [Memory.read]
    · split
      · simp [Memory.read]
      · have h : k ≠ a := by omega
        simp [Memory.read, h, ih]

/-- A write leaves every other offset alone. -/
theorem Memory.read_write_other (m : Memory) {a c : Nat} (b : Byte) (h : c ≠ a) :
    (m.write a b).read c = m.read c := by
  induction m with
  | nil => simp [Memory.write, Memory.read, Ne.symm h]
  | cons x m ih =>
    obtain ⟨k, v⟩ := x
    simp only [Memory.write]
    split
    · simp [Memory.read, Ne.symm h]
    · split
      · rename_i hk
        subst hk
        simp [Memory.read, Ne.symm h]
      · simp only [Memory.read, ih]

/-- The offsets listed after a write: the written one, and those listed before. -/
theorem Memory.mem_write {m : Memory} {a : Nat} {b : Byte} {x : Host.Cell} (h : x ∈ m.write a b) : x = (a, b) ∨ x ∈ m := by
  induction m with
  | nil => simpa [Memory.write] using h
  | cons y m ih =>
    obtain ⟨k, v⟩ := y
    simp only [Memory.write] at h
    split at h
    · simpa using h
    · split at h
      · simp only [List.mem_cons] at h ⊢
        tauto
      · simp only [List.mem_cons] at h ⊢
        rcases h with h | h
        · tauto
        · have := ih h
          tauto

/-- A write keeps the canonical form. -/
theorem Memory.write_wf {m : Memory} (h : m.wf) (a : Nat) (b : Byte) : (m.write a b).wf := by
  induction m with
  | nil => simp [Memory.write, Memory.wf]
  | cons x m ih =>
    obtain ⟨k, v⟩ := x
    simp only [Memory.wf, List.pairwise_cons] at h
    obtain ⟨h1, h2⟩ := h
    simp only [Memory.write]
    split
    · rename_i hk
      refine List.pairwise_cons.2 ⟨fun y hy => ?_, List.pairwise_cons.2 ⟨h1, h2⟩⟩
      rcases List.mem_cons.1 hy with rfl | hy
      · exact hk
      · exact lt_trans hk (h1 y hy)
    · split
      · rename_i hk
        subst hk
        exact List.pairwise_cons.2 ⟨h1, h2⟩
      · refine List.pairwise_cons.2 ⟨fun y hy => ?_, ih h2⟩
        rcases Memory.mem_write hy with rfl | hy
        · change k < a
          omega
        · exact h1 y hy

/-- A write of consecutive bytes keeps the canonical form. -/
theorem Memory.writeList_wf {m : Memory} (h : m.wf) (a : Nat) (bs : List Byte) : (m.writeList a bs).wf := by
  induction bs generalizing m a with
  | nil => exact h
  | cons b bs ih => exact ih (Memory.write_wf h a b) (a + 1)

/-- A write of consecutive bytes that lie in a buffer lists buffer bytes only. -/
theorem Memory.writeList_inBuffers {m : Memory} (h : m.inBuffers) (a : Nat) (bs : List Byte)
    (hb : ∀ i < bs.length, isBuffer (a + i) = true) : (m.writeList a bs).inBuffers := by
  induction bs generalizing m a with
  | nil => exact h
  | cons b bs ih =>
    refine ih (fun x hx => ?_) (a + 1) fun i hi => ?_
    · rcases Memory.mem_write hx with rfl | hx
      · simpa using hb 0 (by simp)
      · exact h x hx
    · have := hb (i + 1) (by simpa using hi)
      rwa [show a + 1 + i = a + (i + 1) by omega]

/-- What a read gives after a write of consecutive bytes: the byte written there, or what was there before. -/
theorem Memory.read_writeList (m : Memory) (a : Nat) (bs : List Byte) (c : Nat) :
    (m.writeList a bs).read c = if a ≤ c ∧ c < a + bs.length then bs[c - a]? else m.read c := by
  induction bs generalizing m a with
  | nil =>
    have h : ¬(a ≤ c ∧ c < a) := by omega
    simp [Memory.writeList, h]
  | cons b bs ih =>
    simp only [Memory.writeList, ih, List.length_cons]
    by_cases h1 : a + 1 ≤ c ∧ c < a + 1 + bs.length
    · have h2 : a ≤ c ∧ c < a + (bs.length + 1) := by omega
      rw [if_pos h1, if_pos h2, show c - a = (c - (a + 1)) + 1 by omega, List.getElem?_cons_succ]
    · rw [if_neg h1]
      by_cases h2 : c = a
      · subst h2
        simp
      · have h3 : ¬(a ≤ c ∧ c < a + (bs.length + 1)) := by omega
        rw [if_neg h3, Memory.read_write_other _ _ h2]

/-- A buffer byte after a write of consecutive bytes. -/
theorem State.bufByte_writeBuf (s : State) (a : Nat) (bs : List Byte) (c : Nat) :
    (s.writeBuf a bs).bufByte c = if a ≤ c ∧ c < a + bs.length then bs[c - a]?.getD 0 else s.bufByte c := by
  simp only [State.bufByte, State.writeBuf, Memory.read_writeList]
  by_cases h : a ≤ c ∧ c < a + bs.length
  · have h' : c - a < bs.length := by omega
    simp [h, List.getElem?_eq_getElem h']
  · simp [h]

/-- A buffer byte depends on the memory and the draw alone. -/
theorem State.bufByte_congr {s t : State} (hm : t.mem = s.mem) (hr : t.resets = s.resets) (a : Nat) :
    t.bufByte a = s.bufByte a := by
  simp [State.bufByte, hm, hr]

@[simp] theorem State.length_bufBytes (s : State) (a n : Nat) : (s.bufBytes a n).length = n := by
  simp [State.bufBytes]

/-- Byte `i` of consecutive buffer bytes. -/
theorem State.getElem_bufBytes (s : State) (a n i : Nat) (h : i < (s.bufBytes a n).length) :
    (s.bufBytes a n)[i] = s.bufByte (a + i) := by
  simp [State.bufBytes]

/-- Consecutive buffer bytes depend on the bytes alone. -/
theorem State.bufBytes_congr {s t : State} {a n : Nat} (h : ∀ i < n, t.bufByte (a + i) = s.bufByte (a + i)) :
    t.bufBytes a n = s.bufBytes a n := by
  simp only [State.bufBytes]
  exact List.map_congr_left fun i hi => h i (List.mem_range.1 hi)

end Sys2Proof.Machine
end

