-- ==== Sys2Proof/Laws/State.lean ====
section
/-! SUPPORT. One lemma per field of State per shared update, so that no later proof unfolds a record update. -/

namespace Sys2Proof.Machine

variable (s : State)

/-! ### `State.respond` -/

@[simp] theorem State.respond_queueDepth (d : Word) : (s.respond d).queueDepth = s.queueDepth := rfl
@[simp] theorem State.respond_chans (d : Word) : (s.respond d).chans = s.chans := rfl
@[simp] theorem State.respond_rkv (d : Word) : (s.respond d).rkv = s.rkv := rfl
@[simp] theorem State.respond_err (d : Word) : (s.respond d).err = s.err := rfl
@[simp] theorem State.respond_thresh (d : Word) : (s.respond d).thresh = s.thresh := rfl
@[simp] theorem State.respond_msgLen (d : Word) : (s.respond d).msgLen = s.msgLen := rfl
@[simp] theorem State.respond_ctLen (d : Word) : (s.respond d).ctLen = s.ctLen := rfl
@[simp] theorem State.respond_key (d : Word) : (s.respond d).key = s.key := rfl
@[simp] theorem State.respond_din (d : Word) : (s.respond d).din = s.din := rfl
@[simp] theorem State.respond_dout (d : Word) : (s.respond d).dout = s.dout := rfl
@[simp] theorem State.respond_rks (d : Word) : (s.respond d).rks = s.rks := rfl
@[simp] theorem State.respond_keyLatched (d : Word) : (s.respond d).keyLatched = s.keyLatched := rfl
@[simp] theorem State.respond_mem (d : Word) : (s.respond d).mem = s.mem := rfl
@[simp] theorem State.respond_resp (d : Word) : (s.respond d).resp = some ⟨false, d⟩ := rfl
@[simp] theorem State.respond_pending (d : Word) : (s.respond d).pending = s.pending := rfl
@[simp] theorem State.respond_clock (d : Word) : (s.respond d).clock = s.clock := rfl
@[simp] theorem State.respond_resets (d : Word) : (s.respond d).resets = s.resets := rfl

/-! ### `State.busError` -/

@[simp] theorem State.busError_queueDepth : (s.busError).queueDepth = s.queueDepth := rfl
@[simp] theorem State.busError_chans : (s.busError).chans = s.chans := rfl
@[simp] theorem State.busError_rkv : (s.busError).rkv = s.rkv := rfl
@[simp] theorem State.busError_err : (s.busError).err = s.err := rfl
@[simp] theorem State.busError_thresh : (s.busError).thresh = s.thresh := rfl
@[simp] theorem State.busError_msgLen : (s.busError).msgLen = s.msgLen := rfl
@[simp] theorem State.busError_ctLen : (s.busError).ctLen = s.ctLen := rfl
@[simp] theorem State.busError_key : (s.busError).key = s.key := rfl
@[simp] theorem State.busError_din : (s.busError).din = s.din := rfl
@[simp] theorem State.busError_dout : (s.busError).dout = s.dout := rfl
@[simp] theorem State.busError_rks : (s.busError).rks = s.rks := rfl
@[simp] theorem State.busError_keyLatched : (s.busError).keyLatched = s.keyLatched := rfl
@[simp] theorem State.busError_mem : (s.busError).mem = s.mem := rfl
@[simp] theorem State.busError_resp : (s.busError).resp = some ⟨true, 0⟩ := rfl
@[simp] theorem State.busError_pending : (s.busError).pending = s.pending := rfl
@[simp] theorem State.busError_clock : (s.busError).clock = s.clock := rfl
@[simp] theorem State.busError_resets : (s.busError).resets = s.resets := rfl

/-! ### `State.finish` -/

@[simp] theorem State.finish_queueDepth (e : Err) : (s.finish e).queueDepth = s.queueDepth := rfl
@[simp] theorem State.finish_chans (e : Err) : (s.finish e).chans = s.chans := rfl
@[simp] theorem State.finish_rkv (e : Err) : (s.finish e).rkv = s.rkv := rfl
@[simp] theorem State.finish_err (e : Err) : (s.finish e).err = e := rfl
@[simp] theorem State.finish_thresh (e : Err) : (s.finish e).thresh = s.thresh := rfl
@[simp] theorem State.finish_msgLen (e : Err) : (s.finish e).msgLen = s.msgLen := rfl
@[simp] theorem State.finish_ctLen (e : Err) : (s.finish e).ctLen = s.ctLen := rfl
@[simp] theorem State.finish_key (e : Err) : (s.finish e).key = s.key := rfl
@[simp] theorem State.finish_din (e : Err) : (s.finish e).din = s.din := rfl
@[simp] theorem State.finish_dout (e : Err) : (s.finish e).dout = s.dout := rfl
@[simp] theorem State.finish_rks (e : Err) : (s.finish e).rks = s.rks := rfl
@[simp] theorem State.finish_keyLatched (e : Err) : (s.finish e).keyLatched = s.keyLatched := rfl
@[simp] theorem State.finish_mem (e : Err) : (s.finish e).mem = s.mem := rfl
@[simp] theorem State.finish_resp (e : Err) : (s.finish e).resp = some ⟨false, 0⟩ := rfl
@[simp] theorem State.finish_pending (e : Err) : (s.finish e).pending = s.pending := rfl
@[simp] theorem State.finish_clock (e : Err) : (s.finish e).clock = s.clock := rfl
@[simp] theorem State.finish_resets (e : Err) : (s.finish e).resets = s.resets := rfl

/-! ### `State.fail` -/

@[simp] theorem State.fail_queueDepth (e : Err) : (s.fail e).queueDepth = s.queueDepth := rfl
@[simp] theorem State.fail_chans (e : Err) : (s.fail e).chans = s.chans := rfl
@[simp] theorem State.fail_rkv (e : Err) : (s.fail e).rkv = s.rkv := rfl
@[simp] theorem State.fail_err (e : Err) : (s.fail e).err = e := rfl
@[simp] theorem State.fail_thresh (e : Err) : (s.fail e).thresh = s.thresh := rfl
@[simp] theorem State.fail_msgLen (e : Err) : (s.fail e).msgLen = s.msgLen := rfl
@[simp] theorem State.fail_ctLen (e : Err) : (s.fail e).ctLen = s.ctLen := rfl
@[simp] theorem State.fail_key (e : Err) : (s.fail e).key = s.key := rfl
@[simp] theorem State.fail_din (e : Err) : (s.fail e).din = s.din := rfl
@[simp] theorem State.fail_dout (e : Err) : (s.fail e).dout = s.dout := rfl
@[simp] theorem State.fail_rks (e : Err) : (s.fail e).rks = s.rks := rfl
@[simp] theorem State.fail_keyLatched (e : Err) : (s.fail e).keyLatched = s.keyLatched := rfl
@[simp] theorem State.fail_mem (e : Err) : (s.fail e).mem = s.mem := rfl
@[simp] theorem State.fail_resp (e : Err) : (s.fail e).resp = some ⟨false, 0⟩ := rfl
@[simp] theorem State.fail_pending (e : Err) : (s.fail e).pending = s.pending := rfl
@[simp] theorem State.fail_clock (e : Err) : (s.fail e).clock = s.clock := rfl
@[simp] theorem State.fail_resets (e : Err) : (s.fail e).resets = s.resets := rfl

/-! ### `State.modifyChan` -/

@[simp] theorem State.modifyChan_queueDepth (ch : Nat) (f : Channel → Channel) : (s.modifyChan ch f).queueDepth = s.queueDepth := rfl
@[simp] theorem State.modifyChan_chans (ch : Nat) (f : Channel → Channel) : (s.modifyChan ch f).chans = s.chans.modify ch f := rfl
@[simp] theorem State.modifyChan_rkv (ch : Nat) (f : Channel → Channel) : (s.modifyChan ch f).rkv = s.rkv := rfl
@[simp] theorem State.modifyChan_err (ch : Nat) (f : Channel → Channel) : (s.modifyChan ch f).err = s.err := rfl
@[simp] theorem State.modifyChan_thresh (ch : Nat) (f : Channel → Channel) : (s.modifyChan ch f).thresh = s.thresh := rfl
@[simp] theorem State.modifyChan_msgLen (ch : Nat) (f : Channel → Channel) : (s.modifyChan ch f).msgLen = s.msgLen := rfl
@[simp] theorem State.modifyChan_ctLen (ch : Nat) (f : Channel → Channel) : (s.modifyChan ch f).ctLen = s.ctLen := rfl
@[simp] theorem State.modifyChan_key (ch : Nat) (f : Channel → Channel) : (s.modifyChan ch f).key = s.key := rfl
@[simp] theorem State.modifyChan_din (ch : Nat) (f : Channel → Channel) : (s.modifyChan ch f).din = s.din := rfl
@[simp] theorem State.modifyChan_dout (ch : Nat) (f : Channel → Channel) : (s.modifyChan ch f).dout = s.dout := rfl
@[simp] theorem State.modifyChan_rks (ch : Nat) (f : Channel → Channel) : (s.modifyChan ch f).rks = s.rks := rfl
@[simp] theorem State.modifyChan_keyLatched (ch : Nat) (f : Channel → Channel) : (s.modifyChan ch f).keyLatched = s.keyLatched := rfl
@[simp] theorem State.modifyChan_mem (ch : Nat) (f : Channel → Channel) : (s.modifyChan ch f).mem = s.mem := rfl
@[simp] theorem State.modifyChan_resp (ch : Nat) (f : Channel → Channel) : (s.modifyChan ch f).resp = s.resp := rfl
@[simp] theorem State.modifyChan_pending (ch : Nat) (f : Channel → Channel) : (s.modifyChan ch f).pending = s.pending := rfl
@[simp] theorem State.modifyChan_clock (ch : Nat) (f : Channel → Channel) : (s.modifyChan ch f).clock = s.clock := rfl
@[simp] theorem State.modifyChan_resets (ch : Nat) (f : Channel → Channel) : (s.modifyChan ch f).resets = s.resets := rfl

/-! ### `State.writeBuf` -/

@[simp] theorem State.writeBuf_queueDepth (a : Nat) (bs : List Byte) : (s.writeBuf a bs).queueDepth = s.queueDepth := rfl
@[simp] theorem State.writeBuf_chans (a : Nat) (bs : List Byte) : (s.writeBuf a bs).chans = s.chans := rfl
@[simp] theorem State.writeBuf_rkv (a : Nat) (bs : List Byte) : (s.writeBuf a bs).rkv = s.rkv := rfl
@[simp] theorem State.writeBuf_err (a : Nat) (bs : List Byte) : (s.writeBuf a bs).err = s.err := rfl
@[simp] theorem State.writeBuf_thresh (a : Nat) (bs : List Byte) : (s.writeBuf a bs).thresh = s.thresh := rfl
@[simp] theorem State.writeBuf_msgLen (a : Nat) (bs : List Byte) : (s.writeBuf a bs).msgLen = s.msgLen := rfl
@[simp] theorem State.writeBuf_ctLen (a : Nat) (bs : List Byte) : (s.writeBuf a bs).ctLen = s.ctLen := rfl
@[simp] theorem State.writeBuf_key (a : Nat) (bs : List Byte) : (s.writeBuf a bs).key = s.key := rfl
@[simp] theorem State.writeBuf_din (a : Nat) (bs : List Byte) : (s.writeBuf a bs).din = s.din := rfl
@[simp] theorem State.writeBuf_dout (a : Nat) (bs : List Byte) : (s.writeBuf a bs).dout = s.dout := rfl
@[simp] theorem State.writeBuf_rks (a : Nat) (bs : List Byte) : (s.writeBuf a bs).rks = s.rks := rfl
@[simp] theorem State.writeBuf_keyLatched (a : Nat) (bs : List Byte) : (s.writeBuf a bs).keyLatched = s.keyLatched := rfl
@[simp] theorem State.writeBuf_mem (a : Nat) (bs : List Byte) : (s.writeBuf a bs).mem = s.mem.writeList a bs := rfl
@[simp] theorem State.writeBuf_resp (a : Nat) (bs : List Byte) : (s.writeBuf a bs).resp = s.resp := rfl
@[simp] theorem State.writeBuf_pending (a : Nat) (bs : List Byte) : (s.writeBuf a bs).pending = s.pending := rfl
@[simp] theorem State.writeBuf_clock (a : Nat) (bs : List Byte) : (s.writeBuf a bs).clock = s.clock := rfl
@[simp] theorem State.writeBuf_resets (a : Nat) (bs : List Byte) : (s.writeBuf a bs).resets = s.resets := rfl

end Sys2Proof.Machine
end

