-- ==== Sys2Proof/Laws/Commands.lean ====
section
/-! SUPPORT. What each command can do, said once, and the padding arithmetic it rests on. -/

namespace Sys2Proof

theorem padLen_mod (l : Nat) : padLen l % 16 = 0 := by simp [padLen]

/-- The number of pad bytes is 1 to 16 (R550). -/
theorem padLen_bounds (l : Nat) : l + 1 ≤ padLen l ∧ padLen l ≤ l + 16 := by
  unfold padLen
  omega

/-- R550's bound: a message fits exactly when it has at most 127 bytes. -/
theorem padLen_le_maxMsg (l : Nat) : padLen l ≤ Config.maxMsg ↔ l ≤ 127 := by
  unfold padLen Config.maxMsg
  omega

@[simp] theorem length_pad (m : List Byte) : (pad m).length = padLen m.length := by
  have := padLen_bounds m.length
  simp only [pad, List.length_append, List.length_replicate]
  omega

theorem length_unpad (d : List Byte) : (unpad d).length = d.length - (padValue d).toNat := by
  simp [unpad]

namespace Machine

@[simp] theorem State.length_message (s : State) : s.message.length = s.msgLen.toNat := by simp [State.message]

/-- R554's length check in numbers. -/
theorem State.ctLenOk_iff (s : State) :
    s.ctLenOk = true ↔ s.ctLen.toNat ≠ 0 ∧ s.ctLen.toNat % 16 = 0 ∧ s.ctLen.toNat ≤ 128 :=
  decide_eq_true_iff

theorem State.length_plaintext {s : State} (h : s.ctLenOk = true) : s.plaintext.length = s.ctLen.toNat := by
  have := (State.ctLenOk_iff s).1 h
  simp only [State.plaintext, length_mapBlocks, State.length_bufBytes]
  omega

/-- CLR_CNT (R405): cleared, or BADCMD where there is no such channel. -/
theorem execClrCnt_cases (ch : BitVec 4) (s : State) :
    (ch.toNat < s.numChannels ∧ execClrCnt ch s = .next ((s.modifyChan ch.toNat Channel.clearCounters).finish .ok)) ∨
    (s.numChannels ≤ ch.toNat ∧ execClrCnt ch s = .next (s.fail .badCmd)) := by
  unfold execClrCnt
  split
  · exact .inl ⟨‹_›, rfl⟩
  · exact .inr ⟨by omega, rfl⟩

/-- KEY_EXPAND (R475): a new schedule, or KEYLOCK. -/
theorem execKeyExpand_cases (s : State) :
    (s.quiescent = true ∧
      execKeyExpand s = .next ({ s with keyLatched := s.key, rks := keyExpansion s.key, rkv := true }.finish .ok)) ∨
    (s.quiescent = false ∧ execKeyExpand s = .next (s.fail .keyLock)) := by
  unfold execKeyExpand
  cases h : s.quiescent <;> simp

/-- REINIT (R476): the schedule of the latched key, or NOKEY. -/
theorem execReinit_cases (s : State) :
    (s.rkv = true ∧ execReinit s = .next ({ s with rks := keyExpansion s.keyLatched }.finish .ok)) ∨
    (s.rkv = false ∧ execReinit s = .next (s.fail .noKey)) := by
  unfold execReinit
  cases h : s.rkv <;> simp

/-- ENC_BLK (R510): DOUT, or NOKEY. -/
theorem execEncBlk_cases (s : State) :
    (s.rkv = true ∧ execEncBlk s = .next ({ s with dout := cipher s.din s.rks }.finish .ok)) ∨
    (s.rkv = false ∧ execEncBlk s = .next (s.fail .noKey)) := by
  unfold execEncBlk
  cases h : s.rkv <;> simp

/-- DEC_BLK (R511): DOUT, or NOKEY. -/
theorem execDecBlk_cases (s : State) :
    (s.rkv = true ∧ execDecBlk s = .next ({ s with dout := invCipher s.din s.rks }.finish .ok)) ∨
    (s.rkv = false ∧ execDecBlk s = .next (s.fail .noKey)) := by
  unfold execDecBlk
  cases h : s.rkv <;> simp

/-- PAD_ENC (R552): the ciphertext in CBUF, or NOKEY, or BUFOVF. -/
theorem execPadEnc_cases (s : State) :
    (s.rkv = true ∧ s.msgLen.toNat ≤ 127 ∧
      execPadEnc s = .next ({ s.writeBuf cbufBase (mapBlocks (fun b => cipher b s.rks) (pad s.message)) with
        ctLen := BitVec.ofNat 8 (padLen s.msgLen.toNat) }.finish .ok)) ∨
    (s.rkv = true ∧ 128 ≤ s.msgLen.toNat ∧ execPadEnc s = .next (s.fail .bufOvf)) ∨
    (s.rkv = false ∧ execPadEnc s = .next (s.fail .noKey)) := by
  unfold execPadEnc
  cases hk : s.rkv with
  | false => simp
  | true =>
    simp only [padLen_le_maxMsg]
    by_cases h : s.msgLen.toNat ≤ 127
    · exact .inl ⟨trivial, h, by simp [h]⟩
    · exact .inr (.inl ⟨trivial, by omega, by simp [h]⟩)

/-- DEC_UNPAD (R554): the message in MBUF, or NOKEY, BADLEN or INVPAD. -/
theorem execDecUnpad_cases (s : State) :
    (s.rkv = true ∧ s.ctLenOk = true ∧ padAccepted s.plaintext = true ∧
      execDecUnpad s = .next ({ s.writeBuf mbufBase (unpad s.plaintext ++ [0]) with
        msgLen := BitVec.ofNat 8 (unpad s.plaintext).length }.finish .ok)) ∨
    (s.rkv = true ∧ s.ctLenOk = true ∧ padAccepted s.plaintext = false ∧ execDecUnpad s = .next (s.fail .invPad)) ∨
    (s.rkv = true ∧ s.ctLenOk = false ∧ execDecUnpad s = .next (s.fail .badLen)) ∨
    (s.rkv = false ∧ execDecUnpad s = .next (s.fail .noKey)) := by
  unfold execDecUnpad
  cases hk : s.rkv with
  | false => simp
  | true =>
    cases hl : s.ctLenOk with
    | false => simp
    | true => cases hp : padAccepted s.plaintext <;> simp [hp]

/-- The ciphertext PAD_ENC writes fills CBUF[0 .. P-1] (R552). -/
theorem State.length_ciphertext (s : State) :
    (mapBlocks (fun b => cipher b s.rks) (pad s.message)).length = padLen s.msgLen.toNat := by
  have := padLen_mod s.msgLen.toNat
  simp only [length_mapBlocks, length_pad, State.length_message]
  omega

/-- The message DEC_UNPAD writes, with its terminator, lies inside MBUF (R554). -/
theorem State.length_unpadded {s : State} (hl : s.ctLenOk = true) (hp : padAccepted s.plaintext = true) :
    (unpad s.plaintext).length ≤ 127 := by
  have := (State.ctLenOk_iff s).1 hl
  simp only [padAccepted, decide_eq_true_eq] at hp
  rw [length_unpad, State.length_plaintext hl]
  omega

end Machine
end Sys2Proof
end

