-- ==== Sys2Proof/Laws/Bus.lean ====
section
/-! SUPPORT. The register map and host accesses, each said once. -/

namespace Sys2Proof.Machine

/-- The channel a register belongs to exists (R201). -/
def Reg.Exists (nch : Nat) : Reg → Prop
  | .chCfg ch => ch < nch
  | .chStat ch => ch < nch
  | .qdrop ch => ch < nch
  | .txfail ch => ch < nch
  | _ => True

/-- The register at a word of the first 0x100 bytes has its offset (R201). -/
theorem blockReg_some {k : Nat} {r : Reg} (h : blockReg k = some r) : r.offset = 4 * k ∧ ∀ nch, r.Exists nch := by
  unfold blockReg at h
  split at h <;> cases h <;> exact ⟨rfl, fun _ => trivial⟩

/-- The register found at an offset has that offset, and exists (R201). -/
theorem regAt_some {nch n : Nat} {r : Reg} (h : regAt nch n = some r) : r.offset = n ∧ r.Exists nch := by
  unfold regAt at h
  by_cases h4 : n % 4 = 0
  swap
  · simp [h4] at h
  rw [if_pos h4] at h
  unfold mappedReg at h
  by_cases h1 : n < 0x100
  · rw [if_pos h1] at h
    obtain ⟨ho, he⟩ := blockReg_some h
    exact ⟨by omega, he nch⟩
  rw [if_neg h1] at h
  by_cases h2 : n < 0x200
  · rw [if_pos h2] at h
    by_cases hc : (n - 0x100) / 0x10 < nch
    · rw [if_pos hc] at h
      cases h
      obtain h | h | h | h : n % 16 / 4 = 0 ∨ n % 16 / 4 = 1 ∨ n % 16 / 4 = 2 ∨ n % 16 / 4 = 3 := by omega
      all_goals
        rw [h]
        simp only [chanReg, Reg.offset, Reg.Exists]
        omega
    · simp [hc] at h
  rw [if_neg h2] at h
  by_cases h3 : n < 0x300
  · rw [if_pos h3] at h
    by_cases hc : n < 0x280
    · rw [if_pos hc] at h
      cases h
      refine ⟨?_, trivial⟩
      simp only [Reg.offset, Fin.ofNat]
      omega
    · simp [hc] at h
  rw [if_neg h3] at h
  by_cases hc : n < 0x380
  · rw [if_pos hc] at h
    cases h
    refine ⟨?_, trivial⟩
    simp only [Reg.offset, Fin.ofNat]
    omega
  · simp [hc] at h

/-- An existing register is found at its offset (R201). -/
theorem regAt_offset {nch : Nat} {r : Reg} (h : r.Exists nch) (hn : nch ≤ 16) : regAt nch r.offset = some r := by
  cases r with
  | key i => fin_cases i <;> rfl
  | din i => fin_cases i <;> rfl
  | dout i => fin_cases i <;> rfl
  | mbuf i => fin_cases i <;> rfl
  | cbuf i => fin_cases i <;> rfl
  | chCfg ch | chStat ch | qdrop ch | txfail ch =>
    simp only [Reg.Exists] at h
    have hn : ch < 16 := by omega
    interval_cases ch <;> simp [regAt, mappedReg, Reg.offset, h, chanReg]
  | cmd | status | resync | msgLen | ctLen | param => rfl

/-- Only offset 0 is CMD. -/
theorem regAt_eq_cmd {nch n : Nat} : regAt nch n = some .cmd ↔ n = 0 := by
  constructor
  · intro h
    exact (regAt_some h).1.symm
  · rintro rfl
    rfl

/-- What a host access reaches is a register at its offset. -/
theorem State.accessReg_some {s : State} {size : AccessSize} {off : BitVec 10} {r : Reg}
    (h : s.accessReg size off = some r) : size = .word ∧ regAt s.numChannels off.toNat = some r := by
  unfold State.accessReg at h
  split at h
  · exact ⟨‹_›, h⟩
  · cases h

/-- HOST_WR: a bus error, a command, or a register write. -/
theorem execHostWr_cases (size : AccessSize) (off : BitVec 10) (v : Word) (s : State) :
    (s.accessReg size off = none ∧ execHostWr size off v s = .next s.busError) ∨
    (size = .word ∧ off = 0 ∧ s.accessReg size off = some .cmd ∧
      execHostWr size off v s = runCommand (decodeCmd s.numChannels v) s) ∨
    (∃ r, r ≠ .cmd ∧ s.accessReg size off = some r ∧ execHostWr size off v s = .next ((s.writeReg v r).respond 0)) := by
  unfold execHostWr
  cases h : s.accessReg size off with
  | none => exact .inl ⟨rfl, rfl⟩
  | some r =>
    by_cases hr : r = .cmd
    · subst hr
      obtain ⟨hs, ha⟩ := State.accessReg_some h
      exact .inr (.inl ⟨hs, BitVec.eq_of_toNat_eq (regAt_eq_cmd.1 ha), rfl, rfl⟩)
    · refine .inr (.inr ⟨r, hr, rfl, ?_⟩)
      cases r <;> first | rfl | exact absurd rfl hr

/-- HOST_RD: a bus error, or a register's word. -/
theorem execHostRd_cases (size : AccessSize) (off : BitVec 10) (s : State) :
    (s.accessReg size off = none ∧ execHostRd size off s = .next s.busError) ∨
    (∃ r, s.accessReg size off = some r ∧ execHostRd size off s = .next (s.respond (s.readReg r))) := by
  unfold execHostRd
  cases h : s.accessReg size off with
  | none => exact .inl ⟨rfl, rfl⟩
  | some r => exact .inr ⟨r, rfl, rfl⟩

/-- A register write changes one of: nothing, THRESH, MSGLEN, CTLEN, KEY, DIN, one channel's configuration, four buffer bytes. -/
theorem State.writeReg_cases (s : State) (v : Word) (r : Reg) :
    s.writeReg v r = s ∨
    (r = .resync ∧ s.writeReg v r = { s with thresh := v.extractLsb' 0 16 }) ∨
    (r = .msgLen ∧ s.writeReg v r = { s with msgLen := v.extractLsb' 0 8 }) ∨
    (r = .ctLen ∧ s.writeReg v r = { s with ctLen := v.extractLsb' 0 8 }) ∨
    (∃ i, r = .key i ∧ s.writeReg v r = { s with key := s.key.setCol i (Col.ofWord v) }) ∨
    (∃ i, r = .din i ∧ s.writeReg v r = { s with din := s.din.setCol i (Col.ofWord v) }) ∨
    (∃ ch, r = .chCfg ch ∧ s.writeReg v r = s.modifyChan ch (Channel.writeCfg s.rkv v)) ∨
    (∃ i, r = .mbuf i ∧ s.writeReg v r = s.writeBuf (mbufBase + 4 * i) (Col.ofWord v).toList) ∨
    (∃ i, r = .cbuf i ∧ s.writeReg v r = s.writeBuf (cbufBase + 4 * i) (Col.ofWord v).toList) := by
  cases r <;> simp [State.writeReg]

/-- Every command completes, and the CMD write that carries it is answered without error (R400). -/
theorem runCommand_next (c : Command) (s : State) : ∃ t, runCommand c s = .next t ∧ t.resp = some ⟨false, 0⟩ := by
  cases c with
  | nop => exact ⟨_, rfl, rfl⟩
  | badCmd w => exact ⟨_, rfl, rfl⟩
  | clrCnt ch => rcases execClrCnt_cases ch s with ⟨_, h⟩ | ⟨_, h⟩ <;> exact ⟨_, h, rfl⟩
  | keyExpand => rcases execKeyExpand_cases s with ⟨_, h⟩ | ⟨_, h⟩ <;> exact ⟨_, h, rfl⟩
  | reinit => rcases execReinit_cases s with ⟨_, h⟩ | ⟨_, h⟩ <;> exact ⟨_, h, rfl⟩
  | encBlk => rcases execEncBlk_cases s with ⟨_, h⟩ | ⟨_, h⟩ <;> exact ⟨_, h, rfl⟩
  | decBlk => rcases execDecBlk_cases s with ⟨_, h⟩ | ⟨_, h⟩ <;> exact ⟨_, h, rfl⟩
  | padEnc => rcases execPadEnc_cases s with ⟨_, _, h⟩ | ⟨_, _, h⟩ | ⟨_, h⟩ <;> exact ⟨_, h, rfl⟩
  | decUnpad =>
    rcases execDecUnpad_cases s with ⟨_, _, _, h⟩ | ⟨_, _, _, h⟩ | ⟨_, _, h⟩ | ⟨_, h⟩ <;> exact ⟨_, h, rfl⟩

/-- A command executed through CMD is that command's own instruction (R400). -/
theorem runCommand_eq_exec (c : Command) (s : State) : runCommand c s = exec c.toInstr s := by
  cases c <;> rfl

end Sys2Proof.Machine
end

