-- ==== Sys2Proof/Laws/Cipher.lean ====
section
/-! SUPPORT. The words of an expanded key, by round key. -/

namespace Sys2Proof

/-- Round key `r` of an expanded key (R474). -/
theorem keyExpansion_getElem (key : Block) (r : Nat) (h : r < 11) : (keyExpansion key)[r] = roundKey key r := by
  interval_cases r <;> simp [keyExpansion]

/-- Word `i` of an expanded key is a column of round key `i div 4` (R474). -/
theorem keyExpansion_word (key : Block) (i : Fin 44) :
    (keyExpansion key).word i = (roundKey key (i / 4)).col ⟨i % 4, by omega⟩ := by
  simp only [Schedule.word, keyExpansion_getElem]

end Sys2Proof
end

