-- ==== Sys2Proof/Laws/Encoding.lean ====
section
/-! SUPPORT. The fields of an encoded word, and the decoding of every kind of word, each said once. -/

namespace Sys2Proof

@[simp] theorem cmdOp_cmdWord (op ch : BitVec 4) : cmdOp (cmdWord op ch) = op := by
  revert op ch
  decide

@[simp] theorem cmdCh_cmdWord (op ch : BitVec 4) : cmdCh (cmdWord op ch) = ch := by
  revert op ch
  decide

@[simp] theorem cmdRes_cmdWord (op ch : BitVec 4) : cmdRes (cmdWord op ch) = 0 := by
  revert op ch
  decide

/-- A command word is its fields (R301). -/
theorem cmdWord_fields {w : Word} (h : cmdRes w = 0) : cmdWord (cmdOp w) (cmdCh w) = w := by
  apply BitVec.eq_of_getLsbD_eq
  intro i hi
  have hr : ∀ k < 24, w.getLsbD (8 + k) = false := fun k hk => by
    have := congrArg (fun x => x.getLsbD k) h
    simpa [cmdRes, BitVec.getLsbD_extractLsb', hk] using this
  simp only [cmdWord, cmdOp, cmdCh, BitVec.getLsbD_append, BitVec.getLsbD_extractLsb']
  by_cases h8 : i < 8
  · interval_cases i <;> simp
  · have h4 : ¬ i < 4 := by omega
    have h44 : ¬ i - 4 < 4 := by omega
    have := hr (i - 8) (by omega)
    rw [show 8 + (i - 8) = i by omega] at this
    simp [h4, h44, this]

@[simp] theorem evKind_evWord (ev ch : BitVec 4) (d : Byte) : evKind (evWord ev ch d) = ev := by
  apply BitVec.eq_of_getLsbD_eq
  intro i hi
  simp only [evKind, evWord, BitVec.getLsbD_append, BitVec.getLsbD_extractLsb']
  interval_cases i <;> simp

@[simp] theorem evCh_evWord (ev ch : BitVec 4) (d : Byte) : evCh (evWord ev ch d) = ch := by
  apply BitVec.eq_of_getLsbD_eq
  intro i hi
  simp only [evCh, evWord, BitVec.getLsbD_append, BitVec.getLsbD_extractLsb']
  interval_cases i <;> simp

@[simp] theorem evData_evWord (ev ch : BitVec 4) (d : Byte) : evData (evWord ev ch d) = d := by
  apply BitVec.eq_of_getLsbD_eq
  intro i hi
  simp only [evData, evWord, BitVec.getLsbD_append, BitVec.getLsbD_extractLsb']
  interval_cases i <;> simp

/-- An event word is its fields (R306). -/
@[simp] theorem evWord_fields (e : BitVec 16) : evWord (evKind e) (evCh e) (evData e) = e := by
  apply BitVec.eq_of_getLsbD_eq
  intro i hi
  simp only [evWord, evKind, evCh, evData, BitVec.getLsbD_append, BitVec.getLsbD_extractLsb']
  interval_cases i <;> simp

/-- TX_DONE's data byte is its reserved bits and FAIL (R307). -/
theorem txData_fields : ∀ d : Byte, d.extractLsb' 1 7 = 0 → (0 : BitVec 7) ++ BitVec.ofBool (d.getLsbD 0) = d := by
  decide

/-- decodeCmd gives one of R311's nine answers, each under its own condition. -/
theorem decodeCmd_cases (nch : Nat) (w : Word) :
    (cmdRes w = 0 ∧ cmdCh w = 0 ∧
      ((cmdOp w = 0 ∧ decodeCmd nch w = .nop) ∨ (cmdOp w = 1 ∧ decodeCmd nch w = .keyExpand) ∨
       (cmdOp w = 2 ∧ decodeCmd nch w = .encBlk) ∨ (cmdOp w = 3 ∧ decodeCmd nch w = .decBlk) ∨
       (cmdOp w = 4 ∧ decodeCmd nch w = .padEnc) ∨ (cmdOp w = 5 ∧ decodeCmd nch w = .decUnpad) ∨
       (cmdOp w = 6 ∧ decodeCmd nch w = .reinit))) ∨
    (cmdRes w = 0 ∧ cmdOp w = 7 ∧ (cmdCh w).toNat < nch ∧ decodeCmd nch w = .clrCnt (cmdCh w)) ∨
    decodeCmd nch w = .badCmd w := by
  unfold decodeCmd
  by_cases hr : cmdRes w = 0
  · rw [if_neg (not_not.2 hr)]
    split_ifs with h0 h1 h2 h3 h4 h5 h6 h7 <;> simp_all
  · rw [if_pos hr]
    exact .inr (.inr rfl)

/-- decodeEv gives one of R312's four answers, each under its own condition. -/
theorem decodeEv_cases (e : BitVec 16) :
    (evKind e = 1 ∧ decodeEv e = .rxByte (evCh e) (evData e)) ∨
    (evKind e = 2 ∧ evCh e = 0 ∧ evData e = 0 ∧ decodeEv e = .tick) ∨
    (evKind e = 3 ∧ (evData e).extractLsb' 1 7 = 0 ∧ decodeEv e = .txDone (evCh e) ((evData e).getLsbD 0)) ∨
    (evIgnored e = true ∧ decodeEv e = .evReserved e) := by
  unfold decodeEv evIgnored
  change _ ∨ _ ∨ _ ∨ ((!(evKind e == 1 || evKind e == 2 && evCh e == 0 && evData e == 0 ||
    evKind e == 3 && (evData e).extractLsb' 1 7 == 0)) = true ∧ _)
  split_ifs with h1 h2 h3 <;> simp_all
  tauto

end Sys2Proof
end

