-- ==== Sys2Proof/Laws/PerInstr.lean ====
section
/-! SUPPORT. Statements about every instruction, one lemma per constructor. -/

namespace Sys2Proof.Laws.TableRow

/-- Width, match and mask of an instruction's row of spec/opcode_table.json, copied from the table. None for the rows without
bits, and for BADCMD, whose words "no single match/mask expresses" (the table's note; R311 is the total definition). -/
def row : Instr → Option (Nat × Nat × Nat)
  | .nop => some (32, 0x00000000, 0xFFFFFFFF)
  | .keyExpand => some (32, 0x00000001, 0xFFFFFFFF)
  | .encBlk => some (32, 0x00000002, 0xFFFFFFFF)
  | .decBlk => some (32, 0x00000003, 0xFFFFFFFF)
  | .padEnc => some (32, 0x00000004, 0xFFFFFFFF)
  | .decUnpad => some (32, 0x00000005, 0xFFFFFFFF)
  | .reinit => some (32, 0x00000006, 0xFFFFFFFF)
  | .clrCnt _ => some (32, 0x00000007, 0xFFFFFF0F)
  | .badCmd _ => none
  | .rxByte _ _ => some (16, 0x1000, 0xF000)
  | .tick => some (16, 0x2000, 0xFFFF)
  | .txDone _ _ => some (16, 0x3000, 0xF0FE)
  | .evReserved _ => some (16, 0x0000, 0x0000)
  | .workerPop _ => none
  | .hostWr _ _ _ => none
  | .hostRd _ _ => none
  | .reset => none

/-- The width and the word a stimulus carries, where it carries one of the two formats (R300). -/
def wordOf : Stimulus → Option (Nat × Nat)
  | .hostWrite size off v => if size = .word ∧ off = 0 then some (32, v.toNat) else none
  | .hostRead _ _ => none
  | .event e => some (16, e.toNat)
  | .consumer _ => none
  | .resetInput => none

/-- An instruction whose row gives bits is encoded as a word of the row's width that has the row's bits. -/
def Statement (i : Instr) : Prop :=
  ∀ width mtch mask, row i = some (width, mtch, mask) → ∃ w, wordOf (encode i) = some (width, w) ∧ w &&& mask = mtch

theorem nop : Statement .nop := by rintro _ _ _ ⟨⟩; exact ⟨_, rfl, by decide⟩
theorem keyExpand : Statement .keyExpand := by rintro _ _ _ ⟨⟩; exact ⟨_, rfl, by decide⟩
theorem encBlk : Statement .encBlk := by rintro _ _ _ ⟨⟩; exact ⟨_, rfl, by decide⟩
theorem decBlk : Statement .decBlk := by rintro _ _ _ ⟨⟩; exact ⟨_, rfl, by decide⟩
theorem padEnc : Statement .padEnc := by rintro _ _ _ ⟨⟩; exact ⟨_, rfl, by decide⟩
theorem decUnpad : Statement .decUnpad := by rintro _ _ _ ⟨⟩; exact ⟨_, rfl, by decide⟩
theorem reinit : Statement .reinit := by rintro _ _ _ ⟨⟩; exact ⟨_, rfl, by decide⟩
theorem clrCnt (ch : BitVec 4) : Statement (.clrCnt ch) := by
  rintro _ _ _ ⟨⟩
  exact ⟨_, rfl, by revert ch; decide⟩
theorem badCmd (w : Word) : Statement (.badCmd w) := by rintro _ _ _ ⟨⟩
theorem rxByte (ch : BitVec 4) (b : Byte) : Statement (.rxByte ch b) := by
  rintro _ _ _ ⟨⟩
  refine ⟨_, rfl, ?_⟩
  change (evWord 1 ch b).toNat &&& (0xF000#16).toNat = (0x1000#16).toNat
  rw [← BitVec.toNat_and]
  congr 1
  apply BitVec.eq_of_getLsbD_eq
  intro i hi
  simp only [evWord, BitVec.getLsbD_and, BitVec.getLsbD_append]
  interval_cases i <;> simp
theorem tick : Statement .tick := by rintro _ _ _ ⟨⟩; exact ⟨_, rfl, by decide⟩
theorem txDone (ch : BitVec 4) (fail : Bool) : Statement (.txDone ch fail) := by
  rintro _ _ _ ⟨⟩
  exact ⟨_, rfl, by revert ch fail; decide⟩
theorem evReserved (e : BitVec 16) : Statement (.evReserved e) := by
  rintro _ _ _ ⟨⟩
  exact ⟨_, rfl, by simp⟩
theorem workerPop (ch : BitVec 4) : Statement (.workerPop ch) := by rintro _ _ _ ⟨⟩
theorem hostWr (size : AccessSize) (off : BitVec 10) (v : Word) : Statement (.hostWr size off v) := by rintro _ _ _ ⟨⟩
theorem hostRd (size : AccessSize) (off : BitVec 10) : Statement (.hostRd size off) := by rintro _ _ _ ⟨⟩
theorem reset : Statement .reset := by rintro _ _ _ ⟨⟩

end Sys2Proof.Laws.TableRow
end

