-- ==== Sys2Proof/Laws/Step.lean ====
section
/-! SUPPORT. What a step can do, said once, and what taking a stimulus leaves alone. -/

namespace Sys2Proof.Machine

variable (s : State)

/-- Taking a stimulus touches the model's own `pending` and `clock` alone. -/
theorem State.taken_eq : s.taken = { s with pending := s.taken.pending, clock := s.taken.clock } := by
  unfold State.taken
  split <;> rfl

@[simp] theorem State.taken_queueDepth : s.taken.queueDepth = s.queueDepth := by rw [State.taken_eq]
@[simp] theorem State.taken_chans : s.taken.chans = s.chans := by rw [State.taken_eq]
@[simp] theorem State.taken_rkv : s.taken.rkv = s.rkv := by rw [State.taken_eq]
@[simp] theorem State.taken_err : s.taken.err = s.err := by rw [State.taken_eq]
@[simp] theorem State.taken_thresh : s.taken.thresh = s.thresh := by rw [State.taken_eq]
@[simp] theorem State.taken_msgLen : s.taken.msgLen = s.msgLen := by rw [State.taken_eq]
@[simp] theorem State.taken_ctLen : s.taken.ctLen = s.ctLen := by rw [State.taken_eq]
@[simp] theorem State.taken_key : s.taken.key = s.key := by rw [State.taken_eq]
@[simp] theorem State.taken_din : s.taken.din = s.din := by rw [State.taken_eq]
@[simp] theorem State.taken_dout : s.taken.dout = s.dout := by rw [State.taken_eq]
@[simp] theorem State.taken_rks : s.taken.rks = s.rks := by rw [State.taken_eq]
@[simp] theorem State.taken_keyLatched : s.taken.keyLatched = s.keyLatched := by rw [State.taken_eq]
@[simp] theorem State.taken_mem : s.taken.mem = s.mem := by rw [State.taken_eq]
@[simp] theorem State.taken_resp : s.taken.resp = s.resp := by rw [State.taken_eq]
@[simp] theorem State.taken_resets : s.taken.resets = s.resets := by rw [State.taken_eq]
@[simp] theorem State.taken_numChannels : s.taken.numChannels = s.numChannels := by rw [State.taken_eq]; rfl

variable {s}

/-- A next state comes from the instruction fetched, executed on the state with its stimulus taken. -/
theorem step_next {t : State} (h : step s = .next t) : s.paramsOk = true ∧ exec s.fetch s.taken = .next t := by
  unfold step at h
  split at h
  · exact ⟨‹_›, h⟩
  · cases h

/-- A table word placed for the fetch is what the next step runs, on the very state it was placed in. -/
theorem step_withFetchWord {nbits w : Nat} {x : Stimulus} (hx : wordStimulus nbits w = some x) (hp : s.paramsOk = true) :
    step (s.withFetchWord nbits w) = exec (decodeStimulus s.numChannels x) s := by
  unfold State.withFetchWord State.placeWord
  rw [hx]
  exact if_pos hp

end Sys2Proof.Machine
end

