-- ==== Sys2Proof/Tests/Slice0.lean ====
section
/-! SUPPORT. The model's own tests. Every expected value is copied from spec/95_test_vectors.md (its L1, L2 and L3 names stand in the
comments) or worked out from the rule named. After the tests, one witness for each statement of Certificates/Slice0 that has hypotheses,
at the boundary values of its clauses. -/

namespace Sys2Proof.Tests
open Sys2Proof.Machine

-- One test after the other: many kernel evaluations at once can want more threads than the host's memory limit gives.
set_option Elab.async false

/-! ### Helpers -/

/-- The block written as 32 hexadecimal digits, its first byte leftmost. -/
def blk (n : Nat) : Block := Block.ofBytes fun k => BitVec.ofNat 8 (n / 256 ^ (15 - k))

/-- The `len` bytes written as hexadecimal digits, the first leftmost. -/
def bytes (len n : Nat) : List Byte := (List.range len).map fun k => BitVec.ofNat 8 (n / 256 ^ (len - 1 - k))

def kat : Block := blk 0x2B7E151628AED2A6ABF7158809CF4F3C
def pt : Block := blk 0x6BC1BEE22E409F96E93D7E117393172A
def ct : Block := blk 0x3AD77BB40D7A3660A89ECAF32466EF97

/-- Reset, and then the KAT key expanded. -/
def keyed : State := { State.reset with key := kat, keyLatched := kat, rks := keyExpansion kat, rkv := true }

/-- `keyed` with channel 0 as given. -/
def keyedWith (c : Channel) : State := { keyed with chans := [c, Channel.reset 1] }

/-- Channel 0 enabled, its output 1 (CHCFG = 0x11). -/
def c0 : Channel := { Channel.reset 0 with en := true, out := 1 }

/-- What holds of the next state; false where there is none. -/
def nextIs (o : Host.Outcome State Fault Refusal) (p : State → Bool) : Bool :=
  match o with
  | .next t => p t
  | .fault _ => false
  | .refused _ => false

/-- The result code and RKV as a read of STATUS shows them. -/
def status (t : State) : Word := t.readReg .status

/-! ### Well-formedness refuses an ill-formed term for each check -/

theorem test_wellFormed_refuses :
    Instr.wellFormed 2 (.clrCnt 2) = false ∧ Instr.wellFormed 2 (.badCmd 0x00000017) = false ∧
    Instr.wellFormed 2 (.evReserved 0x2000) = false ∧ Instr.wellFormed 2 (.evReserved 0x3F01) = false ∧
    Instr.wellFormed 2 (.evReserved 0x1AFF) = false ∧ Instr.wellFormed 2 (.workerPop 2) = false ∧
    Instr.wellFormed 2 (.hostWr .word 0 5) = false := by decide

theorem test_wellFormed_accepts :
    Instr.wellFormed 2 (.clrCnt 1) = true ∧ Instr.wellFormed 2 (.badCmd 0x00000027) = true ∧
    Instr.wellFormed 2 (.evReserved 0x3002) = true ∧ Instr.wellFormed 2 (.workerPop 1) = true ∧
    Instr.wellFormed 2 (.hostWr .half 0 5) = true ∧ Instr.wellFormed 2 (.rxByte 15 0) = true := by decide

/-! ### Decoding: words written out from R302, R307 and R310 -/

/-- L2-DS-1, word by word: OP in bits 3..0, CH in bits 7..4, RES above. -/
theorem test_decode_commands :
    decodeTableWord 32 0b00000000000000000000000000000000 = some .nop ∧
    decodeTableWord 32 0b00000000000000000000000000000001 = some .keyExpand ∧
    decodeTableWord 32 0b00000000000000000000000000000010 = some .encBlk ∧
    decodeTableWord 32 0b00000000000000000000000000000011 = some .decBlk ∧
    decodeTableWord 32 0b00000000000000000000000000000100 = some .padEnc ∧
    decodeTableWord 32 0b00000000000000000000000000000101 = some .decUnpad ∧
    decodeTableWord 32 0b00000000000000000000000000000110 = some .reinit ∧
    decodeTableWord 32 0b00000000000000000000000000000111 = some (.clrCnt 0) ∧
    decodeTableWord 32 0b00000000000000000000000000010111 = some (.clrCnt 1) := by decide

/-- L2-DS-1: the invalid words. -/
theorem test_decode_badCmd :
    ∀ w ∈ [0x00000027, 0x000000F7, 0x00000012, 0x00000008, 0x0000000F, 0x00000100, 0x80000001, 0xFFFFFFFF],
      decodeTableWord 32 w = some (.badCmd (BitVec.ofNat 32 w)) := by decide

/-- L2-DS-2: EV in bits 15..12, CH in bits 11..8, DATA in bits 7..0. -/
theorem test_decode_events :
    decodeTableWord 16 0b0001000000000000 = some (.rxByte 0 0x00) ∧
    decodeTableWord 16 0b0001000111111111 = some (.rxByte 1 0xFF) ∧
    decodeTableWord 16 0b0001001010101010 = some (.rxByte 2 0xAA) ∧
    decodeTableWord 16 0b0010000000000000 = some .tick ∧
    decodeTableWord 16 0b0011000000000000 = some (.txDone 0 false) ∧
    decodeTableWord 16 0b0011000100000001 = some (.txDone 1 true) := by decide

/-- L2-DS-2, L2-FQ-11: the ignored words. -/
theorem test_decode_evReserved :
    ∀ e ∈ [0x2001, 0x2100, 0x3002, 0x30FF, 0x0000, 0x4000, 0xF123],
      decodeTableWord 16 e = some (.evReserved (BitVec.ofNat 16 e)) := by decide

/-- The stimuli that carry no format (R310). -/
theorem test_decode_unencoded :
    decodeStimulus 2 (.consumer 1) = .workerPop 1 ∧ decodeStimulus 2 .resetInput = .reset ∧
    decodeStimulus 2 (.hostWrite .word 0x100 0x11) = .hostWr .word 0x100 0x11 ∧
    decodeStimulus 2 (.hostRead .word 0x004) = .hostRd .word 0x004 ∧
    decodeStimulus 2 (.hostWrite .word 0x000 0x02) = .encBlk ∧ decodeTableWord 8 0 = none := by decide

/-! ### The cipher's functions -/

/-- L2-GF-1 to L2-GF-3. -/
theorem test_field :
    xtime 0x57 = 0xAE ∧ xtime 0xFF = 0xE5 ∧ xtime 0x8D = 0x01 ∧ gmul 0x57 0x83 = 0xC1 ∧ gmul 0x57 0x13 = 0xFE ∧
    gmul 0xFF 0xFF = 0x13 ∧ gmul 0x0E 0xDB = 0x6E ∧ gmul 0x09 0x8E = 0x92 ∧ ginv 0x00 = 0x00 ∧ ginv 0x53 = 0xCA ∧
    ginv 0xFF = 0x1C := by decide +kernel

/-- L2-GF-4. -/
theorem test_tables :
    sbox 0x00 = 0x63 ∧ sbox 0x53 = 0xED ∧ sbox 0x80 = 0xCD ∧ sbox 0xFF = 0x16 ∧ sboxDef 0xAA = 0xAC ∧ invSbox 0x00 = 0x52 ∧
    invSbox 0x16 = 0xFF ∧ invSbox 0xED = 0x53 := by decide +kernel

/-- L2-KE-1, L2-KE-2 and L2-KE-4, the last round keys and one in the middle. -/
theorem test_keyExpansion :
    (keyExpansion kat)[5] = blk 0xD4D1C6F87C839D87CAF2B8BC11F915BC ∧
    (keyExpansion kat)[10] = blk 0xD014F9A8C9EE2589E13F0CC8B6630CA6 ∧
    (keyExpansion Block.zero)[10] = blk 0xB4EF5BCB3E92E21123E951CF6F8F188E ∧
    (keyExpansion (blk 0x000102030405060708090A0B0C0D0E0F))[9] = blk 0x549932D1F08557681093ED9CBE2C974E := by decide +kernel

/-- L2-RT-1 to L2-RT-6, L2-RT-9. -/
theorem test_transforms :
    let s := blk 0x000102030405060708090A0B0C0D0E0F
    shiftRows s = blk 0x00050A0F04090E03080D02070C01060B ∧ invShiftRows s = blk 0x000D0A0704010E0B0805020F0C090603 ∧
    subBytes s = blk 0x637C777BF26B6FC53001672BFED7AB76 ∧ invSubBytes s = blk 0x52096AD53036A538BF40A39E81F3D7FB ∧
    mixColumns s = blk 0x02070005060304010A0F080D0E0B0C09 ∧ invMixColumns s = blk 0x0A0F080D0E0B0C090207000506030401 ∧
    addRoundKey pt kat = blk 0x40BFABF406EE4D3042CA6B997A5C5816 := by decide +kernel

/-! ### One step of each instruction -/

/-- L2-DS-4: NOP clears the code. -/
theorem test_nop : nextIs (exec .nop { keyed with err := .invPad }) fun t => status t == 0x00000001 := by decide +kernel

/-- L2-KE-5: the key after reset is the zero key. -/
theorem test_keyExpand_reset :
    nextIs (exec .keyExpand State.reset) fun t =>
      status t == 0x00000001 && t.rks[10] == blk 0xB4EF5BCB3E92E21123E951CF6F8F188E := by decide +kernel

/-- L2-KE-5: KEYLOCK, the schedule unchanged. -/
theorem test_keyExpand_locked :
    nextIs (exec .keyExpand { keyedWith c0 with key := Block.zero }) fun t =>
      status t == 0x00000031 && t.rks[10] == blk 0xD014F9A8C9EE2589E13F0CC8B6630CA6 := by decide +kernel

/-- L2-KE-5: REINIT reads the latched key, not KEY, and is not subject to KEYLOCK. -/
theorem test_reinit :
    nextIs (exec .reinit { keyedWith c0 with key := Block.zero, rks := Vector.replicate 11 Block.zero }) fun t =>
      status t == 0x00000001 && t.rks[10] == blk 0xD014F9A8C9EE2589E13F0CC8B6630CA6 := by decide +kernel

/-- L2-KE-5: REINIT before any key. -/
theorem test_reinit_noKey : nextIs (exec .reinit State.reset) fun t => status t == 0x00000020 := by decide +kernel

/-- L1-1. -/
theorem test_encBlk : nextIs (exec .encBlk { keyed with din := pt }) fun t =>
    t.dout == ct && t.readReg (.dout 0) == 0xB47BD73A && status t == 0x00000001 := by decide +kernel

/-- L2-CI-10. -/
theorem test_encBlk_noKey : nextIs (exec .encBlk { State.reset with din := pt }) fun t =>
    status t == 0x00000020 && t.dout == Block.zero := by decide +kernel

/-- L1-1, P1 line 11. -/
theorem test_decBlk : nextIs (exec .decBlk { keyed with din := ct }) fun t => t.dout == pt && status t == 0x00000001 := by
  decide +kernel

/-- L2-CI-10: decryption of what was never encrypted. -/
theorem test_decBlk_pt : nextIs (exec .decBlk { keyed with din := pt }) fun t =>
    t.dout == blk 0x500594E20D6D6C8C716B667C38F085F1 := by decide +kernel

/-- L2-PD-5: a whole block of padding. -/
theorem test_padEnc : nextIs (exec .padEnc { keyed.writeBuf 0x200 (bytes 16 0x000102030405060708090A0B0C0D0E0F) with msgLen := 16 })
    fun t => t.ctLen == 32 && status t == 0x00000001 &&
      t.bufBytes 0x300 32 == bytes 32 0x50FE67CC996D32B6DA0937E99BAFEC60A254BE88E037DDD9D79FB6411C3F9DF8 := by decide +kernel

/-- L2-PD-7: BUFOVF at 128. -/
theorem test_padEnc_overflow : nextIs (exec .padEnc { keyed with msgLen := 128, ctLen := 16 })
    fun t => t.ctLen == 16 && status t == 0x00000041 && t.mem == [] := by decide +kernel

/-- L2-PD-10: the message and its terminator. -/
theorem test_decUnpad : nextIs (exec .decUnpad { keyed.writeBuf 0x300 (bytes 16 0x0DA7D34A2C0C32BD408E96DBD66F3FFE) with ctLen := 16 })
    fun t => t.msgLen == 3 && status t == 0x00000001 && t.bufBytes 0x200 4 == [0x61, 0x62, 0x63, 0x00] && t.mem.length == 20 := by
  decide +kernel

/-- L2-PD-16: INVPAD, nothing written. -/
theorem test_decUnpad_invPad :
    nextIs (exec .decUnpad { keyed.writeBuf 0x300 (bytes 16 0x46440182B842E3AF60292498EA18EA42) with ctLen := 16, msgLen := 3 })
      fun t => t.msgLen == 3 && status t == 0x00000061 && t.mem.length == 16 := by decide +kernel

/-- A state with both channels' counters set (L2-DS-4). -/
def counted : State :=
  { keyed with chans := [{ Channel.reset 0 with qdrop := 4 }, { Channel.reset 1 with qdrop := 3, txfail := 2 }] }

/-- L2-DS-4. -/
theorem test_clrCnt : nextIs (exec (.clrCnt 1) counted) fun t =>
    t.chans == [{ Channel.reset 0 with qdrop := 4 }, Channel.reset 1] && status t == 0x00000001 := by decide +kernel

/-- L2-DS-4: a channel that does not exist. -/
theorem test_badCmd : nextIs (exec (.hostWr .word 0 0x00000027) counted) fun t =>
    t.chans == counted.chans && status t == 0x00000011 := by decide +kernel

/-- L2-FQ-2: a gap of exactly THRESH keeps the frame. -/
theorem test_rxByte_keeps : nextIs (exec (.rxByte 0 0xDD) (keyedWith { c0 with fidx := 3, idle := 10 })) fun t =>
    t.readReg (.chStat 0) == 0x00000004 && (t.chans.map fun c => c.fbuf.toList[3]?) == [some 0xDD, some 0] := by decide +kernel

/-- L2-FQ-3: a gap above THRESH restarts it. -/
theorem test_rxByte_restarts : nextIs (exec (.rxByte 0 0xEE) (keyedWith { c0 with fidx := 4, idle := 11 })) fun t =>
    t.readReg (.chStat 0) == 0x00000001 && (t.chans.map fun c => c.fbuf.toList[0]?) == [some 0xEE, some 0] := by decide +kernel

/-- L2-FQ-7: the counters saturate. -/
theorem test_tick : nextIs (exec .tick
    { keyed with chans := [{ Channel.reset 0 with idle := 0xFFFE }, { Channel.reset 1 with idle := 0xFFFF }] })
    fun t => (t.chans.map fun c => c.idle) == [0xFFFF, 0xFFFF] := by decide +kernel

/-- P3 line 15: the frame ends, the failure is counted. -/
theorem test_txDone : nextIs (exec (.txDone 0 true) (keyedWith { c0 with w := .hold 1 ct })) fun t =>
    t.chans == [{ c0 with txfail := 1 }, Channel.reset 1] := by decide +kernel

/-- L2-FQ-10: an unsolicited answer. -/
theorem test_txDone_idle : nextIs (exec (.txDone 0 true) (keyedWith c0)) fun t => t == keyedWith c0 := by decide +kernel

/-- L2-FQ-11. -/
theorem test_evReserved : nextIs (exec (.evReserved 0x3002) (keyedWith c0)) fun t => t == keyedWith c0 := by decide +kernel

/-- P4 line 8: the head frame is popped, ciphered and presented. -/
theorem test_workerPop : nextIs (exec (.workerPop 0) (keyedWith { c0 with q := [pt, ct] })) fun t =>
    t.txRequest 0 == some ⟨0, 1, ct⟩ && t.readReg (.chStat 0) == 0x00010100 := by decide +kernel

/-- P4 line 9: a pop that is not enabled. -/
theorem test_workerPop_held : nextIs (exec (.workerPop 0) (keyedWith { c0 with q := [ct], w := .hold 1 ct })) fun t =>
    t.chans == [{ c0 with q := [ct], w := .hold 1 ct }, Channel.reset 1] := by decide +kernel

/-- L2-FQ-15: EN refused before a key, reserved bits ignored. -/
theorem test_hostWr_chCfg : nextIs (exec (.hostWr .word 0x100 0xFFFFFFFF) State.reset) fun t =>
    t.readReg (.chCfg 0) == 0x000000F2 && t.resp == some ⟨false, 0⟩ := by decide +kernel

/-- L2-BUS-8: byte lanes. -/
theorem test_hostWr_key : nextIs (exec (.hostWr .word 0x02C 0x3C4FCF09) State.reset) fun t =>
    t.key == blk 0x00000000000000000000000009CF4F3C := by decide +kernel

/-- L2-BUS-7. -/
theorem test_hostRd_param : nextIs (exec (.hostRd .word 0x014) State.reset) fun t => t.resp == some ⟨false, 0x00800202⟩ := by
  decide +kernel

/-- L2-BUS-1, L2-BUS-2: bus errors. -/
theorem test_hostRd_errors :
    ∀ a ∈ [0x018, 0x01C, 0x050, 0x0FC, 0x120, 0x1FC, 0x280, 0x2FC, 0x380, 0x3FC, 0x002, 0x006],
      (nextIs (exec (.hostRd .word a) State.reset) fun t => t.resp == some ⟨true, 0⟩) := by decide +kernel

/-- R801: RESET, from a state in the middle of things. -/
theorem test_reset : nextIs (exec .reset { keyedWith { c0 with q := [pt] } with thresh := 5, err := .badLen }) fun t =>
    t == { State.reset with resets := 1 } := by decide +kernel

/-- The next step after a word is placed for the fetch runs it (log entry 3). -/
theorem test_step_runs_word : nextIs (step (State.reset.withFetchWord 32 0x00000002)) fun t => status t == 0x00000020 := by
  decide +kernel

/-! ### Witnesses: every statement with hypotheses has an instance, at the boundary values of its clauses -/

theorem witness_InstructionRoundTrip :
    Instr.wellFormed 16 (.clrCnt 15) = true ∧ Instr.wellFormed 1 (.clrCnt 0) = true ∧ Instr.wellFormed 16 (.badCmd 0x107) = true ∧
    Instr.wellFormed 16 (.evReserved 0x2100) = true ∧ Instr.wellFormed 16 (.hostWr .word 4 0) = true := by decide

theorem witness_CommandWordMap :
    decodeCmd 16 0x000000F7 = .clrCnt 15 ∧ decodeCmd 1 0x00000007 = .clrCnt 0 ∧ decodeCmd 1 0x00000017 = .badCmd 0x17 ∧
    decodeCmd 16 0x00000106 = .badCmd 0x106 ∧ decodeCmd 16 0x00000016 = .badCmd 0x16 := by decide

/-- One word for each way to be invalid, and the largest valid one. -/
theorem witness_InvalidCommandWords :
    (0x00000100#32).toNat / 256 ≠ 0 ∧ 8 ≤ (0x00000008#32).toNat % 16 ∧
    ((0x00000010#32).toNat % 16 ≠ 7 ∧ (0x00000010#32).toNat / 16 % 16 ≠ 0) ∧
    ((0x00000027#32).toNat % 16 = 7 ∧ State.reset.numChannels ≤ (0x00000027#32).toNat / 16 % 16) ∧
    ¬((0x00000017#32).toNat / 256 ≠ 0 ∨ 8 ≤ (0x00000017#32).toNat % 16 ∨
      ((0x00000017#32).toNat % 16 ≠ 7 ∧ (0x00000017#32).toNat / 16 % 16 ≠ 0) ∨
      ((0x00000017#32).toNat % 16 = 7 ∧ State.reset.numChannels ≤ (0x00000017#32).toNat / 16 % 16)) := by decide

theorem witness_EventWordMap :
    decodeEv 0x1FFF = .rxByte 15 0xFF ∧ decodeEv 0x2000 = .tick ∧ decodeEv 0x3F01 = .txDone 15 true ∧
    decodeEv 0x3F02 = .evReserved 0x3F02 ∧ decodeEv 0x0FFF = .evReserved 0x0FFF ∧ decodeEv 0x2F00 = .evReserved 0x2F00 := by decide

/-- Each unmapped range at both its ends, beside mapped neighbours. -/
theorem witness_UnmappedOffsets :
    (∀ n ∈ [0x018, 0x01C, 0x050, 0x0FC, 0x120, 0x1FC, 0x280, 0x2FC, 0x380, 0x3FC, 0x001, 0x3FF], regAt 2 n = none) ∧
    (∀ n ∈ [0x000, 0x014, 0x020, 0x04C, 0x100, 0x11C, 0x200, 0x27C, 0x300, 0x37C], (regAt 2 n).isSome = true) ∧
    (regAt 16 0x1FC).isSome = true := by decide

theorem witness_StepRunsDecoded :
    State.reset.paramsOk = true ∧ State.reset.pending = [] ∧
    (State.reset.withFetchWord 16 0x2000).paramsOk = true ∧ (State.reset.withFetchWord 16 0x2000).pending = .event 0x2000 :: [] ∧
    (AccessSize.half ≠ .word ∨ (0#10) ≠ 0) ∧ (AccessSize.word ≠ .word ∨ (4#10) ≠ 0) := by decide

/-- Each bound of R9 broken by one. -/
theorem witness_IllegalParametersRefused :
    let bad := fun s : State => ¬(1 ≤ s.numChannels ∧ s.numChannels ≤ 16 ∧ 1 ≤ s.queueDepth ∧ s.queueDepth ≤ 255)
    bad (State.resetWith 0 2 0 0 []) ∧ bad (State.resetWith 17 2 0 0 []) ∧ bad (State.resetWith 2 0 0 0 []) ∧
    bad (State.resetWith 2 256 0 0 []) := by decide

/-- A state where every clause of the invariant says something. -/
def busy : State :=
  { keyedWith { c0 with fidx := 15, q := [pt, ct], w := .hold 1 ct } with mem := [(0x200, 1), (0x37F, 2)], pending := [.event 0x10AA] }

theorem busy_inv : busy.Inv where
  keyed := fun _ => rfl
  chans := by
    intro c hc
    simp only [busy, keyedWith, List.mem_cons, List.not_mem_nil, or_false] at hc
    rcases hc with rfl | rfl <;> constructor <;> decide
  mem_wf := by decide
  mem_buffers := by decide

theorem witness_StepKeepsInvariant : busy.Inv ∧ ∃ t, step busy = .next t := ⟨busy_inv, _, rfl⟩

theorem witness_ParamRegisterConstant :
    (State.resetWith 1 1 0 0 []).paramsOk = true ∧ (State.resetWith 16 255 0 0 []).paramsOk = true ∧
    ∃ t, exec .reset (State.resetWith 16 255 0 0 []) = .next t := ⟨by decide, by decide, _, rfl⟩

theorem witness_ClrCntClearsOneChannel :
    (∃ c, counted.chans[(1#4).toNat]? = some c) ∧ counted.numChannels ≤ (2#4).toNat := ⟨⟨_, rfl⟩, by decide⟩

/-- Quiescence, and each of the three ways to break it. -/
theorem witness_KeyExpandNeedsQuiescence :
    (∀ c ∈ keyed.chans, c.en = false ∧ c.q = [] ∧ c.w = .idle) ∧
    (∃ c ∈ (keyedWith c0).chans, c.en = true) ∧
    (∃ c ∈ (keyedWith { Channel.reset 0 with q := [pt] }).chans, c.q ≠ []) ∧
    ∃ c ∈ (keyedWith { Channel.reset 0 with w := .hold 0 pt }).chans, c.w ≠ .idle := by decide

theorem witness_ReinitRederivesSchedule : keyed.rkv = true ∧ State.reset.rkv = false := ⟨rfl, rfl⟩
theorem witness_ReinitIsNopThatReportsOk : busy.Inv ∧ busy.rkv = true := ⟨busy_inv, rfl⟩
theorem witness_BlockCipherResults : keyed.rkv = true ∧ State.reset.rkv = false := ⟨rfl, rfl⟩

/-- The longest message that fits, and the shortest that does not. -/
theorem witness_PadEncResult :
    State.reset.rkv = false ∧
    (let s := { keyed with msgLen := 128 }; s.rkv = true ∧ 128 < (s.msgLen.toNat / 16 + 1) * 16) ∧
    (let s := { keyed with msgLen := 127 }; s.rkv = true ∧ (s.msgLen.toNat / 16 + 1) * 16 ≤ 128) := by decide

/-- One ciphertext block in CBUF. -/
def withCt (n : Nat) : State := { keyed.writeBuf 0x300 (bytes 16 n) with ctLen := 16 }

/-- The last byte DEC_UNPAD decrypts from it, as the statement computes it. -/
def lastByte (s : State) : Nat :=
  let n := s.ctLen.toNat - 1
  ((invCipher (Block.ofBytes fun k => s.bufByte (0x300 + (16 * (n / 16) + k))) s.rks).toList.getD (n % 16) 0).toNat

/-- The pad values 0, 17 (refused), 1 and 16 (accepted), L2-PD-11 to L2-PD-16; the lengths at the check's edges, L2-PD-18. -/
theorem witness_DecUnpadResult :
    lastByte (withCt 0x7DF76B0C1AB899B33E42F047B91B546F) = 0 ∧ lastByte (withCt 0x46440182B842E3AF60292498EA18EA42) = 17 ∧
    lastByte (withCt 0x57127D4034B1BEBFAEF466B9C7726FC6) = 1 ∧ lastByte (withCt 0xA254BE88E037DDD9D79FB6411C3F9DF8) = 16 ∧
    (∀ l ∈ [0, 15, 17, 136, 144], l = 0 ∨ l % 16 ≠ 0 ∨ l > 128) ∧ ∀ l ∈ [16, 128], ¬(l = 0 ∨ l % 16 ≠ 0 ∨ l > 128) := by
  decide +kernel

theorem witness_CommandResultPrecedence :
    isCommand .encBlk = true ∧ (nextIs (exec .encBlk State.reset) fun t => t.err != .ok) = true ∧
    isCommand .nop = true ∧ (nextIs (exec .nop State.reset) fun t => t.err == .ok) = true := by decide +kernel

/-- A command, and an instruction that is none, that change a channel. -/
theorem witness_ChannelStateWriters :
    isCommand (.clrCnt 1) = true ∧ (nextIs (exec (.clrCnt 1) counted) fun t => t.chans[1]? != counted.chans[1]?) = true ∧
    isCommand .tick = false ∧ (nextIs (exec .tick counted) fun t => t.chans[1]? != counted.chans[1]?) = true := by decide +kernel

theorem witness_ErrWriters : (nextIs (exec (.badCmd 8) keyed) fun t => t.err != keyed.err) = true := by decide +kernel

theorem witness_KeyAndScheduleWriters :
    State.reset.rkv = false ∧ (nextIs (exec .keyExpand State.reset) fun t => t.rkv && t.rks != State.reset.rks) = true ∧
    keyed.rkv = true ∧ (nextIs (exec .reset keyed) fun t => !t.rkv && t.keyLatched != keyed.keyLatched) = true := by decide +kernel

theorem witness_BufferWriters :
    (nextIs (exec (.hostWr .word 0x37C 0xFF000000) (keyed.writeBuf 0x37C [0, 0, 0, 0])) fun t => t.bufByte 0x37F != 0) = true ∧
    (keyed.writeBuf 0x37C [0, 0, 0, 0]).bufByte 0x37F = 0 := by decide +kernel

/-- Each register changed by one of its writers. -/
theorem witness_DataRegisterWriters :
    (nextIs (exec (.hostWr .word 0x008 1) keyed) fun t => t.thresh != keyed.thresh) = true ∧
    (nextIs (exec (.hostWr .word 0x00C 1) keyed) fun t => t.msgLen != keyed.msgLen) = true ∧
    (nextIs (exec .padEnc keyed) fun t => t.ctLen != keyed.ctLen) = true ∧
    (nextIs (exec (.hostWr .word 0x02C 1) keyed) fun t => t.key != keyed.key) = true ∧
    (nextIs (exec (.hostWr .word 0x03C 1) keyed) fun t => t.din != keyed.din) = true ∧
    (nextIs (exec .encBlk keyed) fun t => t.dout != keyed.dout) = true := by decide +kernel

theorem witness_EventAndPopFrame : ∃ t, exec (.workerPop 0) busy = .next t := ⟨_, rfl⟩

/-- The index a byte is stored at, as the statement computes it. -/
def storeIndex (s : State) (c : Channel) : Nat := if c.idle.toNat > s.thresh.toNat then 0 else c.fidx.toNat

/-- Index 14, index 0 after a gap, index 15 with room and with the queue full, an absent and a disabled channel. -/
theorem witness_RxByteOnChannel :
    c0.en = true ∧ storeIndex keyed { c0 with fidx := 14, idle := 10 } = 14 ∧
    storeIndex keyed { c0 with fidx := 15, idle := 11 } = 0 ∧ storeIndex keyed { c0 with fidx := 15 } = 15 ∧
    (keyedWith { c0 with fidx := 15 }).chans[(0#4).toNat]? = some { c0 with fidx := 15 } ∧
    ({ c0 with q := [pt] } : Channel).q.length < keyed.queueDepth ∧
    keyed.queueDepth ≤ ({ c0 with q := [pt, ct] } : Channel).q.length ∧
    keyed.numChannels ≤ (2#4).toNat ∧ (keyed.chans[(1#4).toNat]?.map fun c => c.en) = some false := by decide +kernel

theorem witness_TxDoneAnswers :
    (busy.chans[(0#4).toNat]?.map fun c => c.w) = some (.hold 1 ct) ∧ busy.numChannels ≤ (2#4).toNat ∧
    (keyed.chans[(1#4).toNat]?.map fun c => c.w) = some .idle := by decide +kernel

/-- One event word for each way to be ignored, and a byte on a disabled channel. -/
theorem witness_IgnoredEvents :
    (0x4000#16).toNat / 4096 = 4 ∧ (0x0FFF#16).toNat / 4096 = 0 ∧
    ((0x2001#16).toNat / 4096 = 2 ∧ (0x2001#16).toNat % 4096 ≠ 0) ∧
    ((0x3002#16).toNat / 4096 = 3 ∧ (0x3002#16).toNat % 256 / 2 ≠ 0) ∧
    ((0x1205#16).toNat / 4096 = 1 ∧ keyed.numChannels ≤ (0x1205#16).toNat / 256 % 16) ∧
    (keyed.chans[(1#4).toNat]?.map fun c => c.en) = some false := by decide

theorem witness_WorkerPopTakesHead :
    let c := { c0 with q := [pt, ct] }
    (keyedWith c).chans[(0#4).toNat]? = some c ∧ c.w = .idle ∧ c.q = pt :: [ct] ∧ (keyedWith c).rkv = true := by decide +kernel

/-- Each reason a pop is not enabled. -/
theorem witness_WorkerPopNotEnabled :
    State.reset.rkv = false ∧ keyed.numChannels ≤ (2#4).toNat ∧
    (busy.chans[(0#4).toNat]?.map fun c => decide (c.w ≠ .idle)) = some true ∧
    (keyed.chans[(0#4).toNat]?.map fun c => c.q) = some [] := by decide +kernel

/-- Mapped offsets at the ends of the map, and the first and the last channel. -/
theorem witness_HostReadResult :
    regAt keyed.numChannels (0x000#10).toNat = some .cmd ∧ regAt keyed.numChannels (0x37C#10).toNat = some (.cbuf 31) ∧
    regAt keyed.numChannels (0x11C#10).toNat = some (.txfail 1) ∧ (0 < 16 ∧ 0 < keyed.numChannels) ∧
    (15 < 16 ∧ 15 < (State.resetWith 16 255 0 0 []).numChannels) := by decide

theorem witness_RegisterReadWords : busy.chans[1]? = some (Channel.reset 1) := rfl

theorem witness_BusErrorsChangeNothing :
    AccessSize.half ≠ .word ∧ (0x3FF#10).toNat % 4 ≠ 0 ∧ unmapped keyed.numChannels (0x018#10).toNat ∧
    unmapped keyed.numChannels (0x0FC#10).toNat ∧ unmapped keyed.numChannels (0x120#10).toNat ∧
    unmapped keyed.numChannels (0x280#10).toNat ∧ unmapped keyed.numChannels (0x3FC#10).toNat := by
  unfold unmapped
  decide

theorem witness_WriteOnlyAndReadOnly :
    (∀ n ∈ [0x000, 0x020, 0x02C], n % 4 = 0 ∧ (n = 0 ∨ (0x020 ≤ n ∧ n < 0x030))) ∧
    ∀ n ∈ [0x004, 0x014, 0x040, 0x04C, 0x104, 0x11C], n % 4 = 0 ∧
      (n = 0x004 ∨ n = 0x014 ∨ (0x040 ≤ n ∧ n < 0x050) ∨
        (0x100 ≤ n ∧ n < 0x200 ∧ n < 0x100 + 0x10 * keyed.numChannels ∧ n % 0x10 ≠ 0)) := by decide

theorem witness_BufferWordLanes : (0x200 = 0x200 ∨ 0x200 = 0x300) ∧ (0x300 = 0x200 ∨ 0x300 = 0x300) := by decide

/-- A channel that a write disables with a frame half received, in the first and the last place. -/
theorem witness_ChcfgWrite :
    (busy.chans[0]?.map fun c => (c.en, c.fidx)) = some (true, 15) ∧ (0 : Nat) < 16 ∧
    (State.resetWith 16 255 0 0 []).chans[15]? = some (Channel.reset 15) := by decide +kernel

theorem witness_KeyNotReadable :
    ∀ n ∈ [0x020#10, 0x02C#10], n.toNat % 4 = 0 ∧ 0x020 ≤ n.toNat ∧ n.toNat < 0x030 := by decide

/-- Two states that share channel 0 and what it reads, and nothing of channel 1. -/
theorem witness_ChannelsIndependent :
    let s' := { keyed with chans := [Channel.reset 0, c0] }
    s'.chans[(0#4).toNat]? = keyed.chans[(0#4).toNat]? ∧ s'.thresh = keyed.thresh ∧ s'.queueDepth = keyed.queueDepth ∧
    s'.rkv = keyed.rkv ∧ s'.rks = keyed.rks ∧ (∃ t, exec (.rxByte 0 1) keyed = .next t) ∧ (∃ t, exec (.rxByte 0 1) s' = .next t) ∧
    (∃ t, exec (.hostWr .word 0x100 0x11) keyed = .next t) ∧ ∃ t, exec (.hostWr .word 0x100 0x11) s' = .next t :=
  ⟨rfl, rfl, rfl, rfl, rfl, ⟨_, rfl⟩, ⟨_, rfl⟩, ⟨_, rfl⟩, ⟨_, rfl⟩⟩

theorem witness_DifferentChannelsCommute : (0#4) ≠ 1#4 := by decide

theorem witness_SixteenBytesCompleteFrame :
    let s := keyedWith { c0 with idle := 0xFFFF, q := [ct] }
    s.chans[(0#4).toNat]? = some { c0 with idle := 0xFFFF, q := [ct] } ∧ c0.en = true ∧ c0.fidx = 0 ∧ [ct].length < s.queueDepth ∧
    pt.toList.length = 16 := by decide +kernel

theorem witness_OverflowDropsExcess : c0.q = [] := rfl

/-- Two states that differ in a frame buffer's bytes from the write index up. -/
theorem witness_FrameBufferUnobservable :
    let c := { c0 with fidx := 4, fbuf := blk 0x11121314000000000000000000000000 }
    let d := { c0 with fidx := 4, fbuf := blk 0x111213145555555555555555555555FF }
    (keyedWith c).Agree (keyedWith d) ∧ c ≠ d ∧ (∃ t, exec (.rxByte 0 1) (keyedWith c) = .next t) ∧
      ∃ t, exec (.rxByte 0 1) (keyedWith d) = .next t := by
  refine ⟨⟨rfl, .cons ⟨rfl, by decide⟩ (.cons ⟨rfl, by decide⟩ .nil)⟩, by decide, ⟨_, rfl⟩, ⟨_, rfl⟩⟩

/-- A consumer in HOLD, an IDLE one and an absent channel. -/
theorem witness_TransmitPort :
    busy.txRequest 0 = some ⟨0, 1, ct⟩ ∧ (busy.chans[0]?.map fun c => c.w) = some (.hold 1 ct) ∧
    keyed.txRequest 1 = none ∧ (keyed.chans[1]?.map fun c => c.w) = some .idle ∧
    keyed.txRequest 2 = none ∧ keyed.numChannels ≤ 2 := by decide +kernel

/-- The first and the last derived word (L2-KE-1). -/
theorem witness_KeyExpansionRecurrence :
    (keyExpansion kat).word ⟨4, by decide⟩ = ⟨0xA0, 0xFA, 0xFE, 0x17⟩ ∧
    (keyExpansion kat).word ⟨43, by decide⟩ = ⟨0xB6, 0x63, 0x0C, 0xA6⟩ := by decide +kernel

/-- Both cases of xtime (L2-GF-1), a nonzero byte and its inverse, a zero operand. -/
theorem witness_MultiplierLaws :
    xtime 0x7F = 0xFE ∧ xtime 0x80 = 0x1B ∧ gmul 0x53 0xCA = 1 ∧ ginv 0x53 = 0xCA ∧ gmul 0 0x77 = 0 := by decide +kernel

theorem witness_TransformsByIndex : pt.toList.getD (3 + 4 * 3) 0 = 0x2A ∧ pt.toList.getD (0 + 4 * 0) 0 = 0x6B := by decide

/-- L2-PD-0. -/
theorem witness_PaddingArithmetic :
    padLen 0 = 16 ∧ padLen 15 = 16 ∧ padLen 16 = 32 ∧ padLen 127 = 128 ∧ padLen 128 = 144 ∧
    (pad [0x61]).drop 1 = List.replicate 15 0x0F := by decide

theorem witness_PaddingRoundTrip : keyed.rkv = true ∧ ({ keyed with msgLen := 127 } : State).msgLen.toNat ≤ 127 := by decide

end Sys2Proof.Tests
end

section
/-! PROOFS. PARAM (R109): the fields of its word, and that every instruction keeps the two parameters it reads. -/

namespace Sys2Proof.Machine

/-! ### The fields of the PARAM word -/

theorem paramWord_nch (nch depth : Nat) : (paramWord nch depth).extractLsb' 0 8 = BitVec.ofNat 8 nch :=
  BitVec.extractLsb'_append_eq_right

theorem paramWord_depth (nch depth : Nat) : (paramWord nch depth).extractLsb' 8 8 = BitVec.ofNat 8 depth := by
  rw [paramWord, BitVec.extractLsb'_append_eq_of_le (by decide)]
  exact BitVec.extractLsb'_append_eq_right

theorem paramWord_maxMsg (nch depth : Nat) : (paramWord nch depth).extractLsb' 16 8 = 0x80 := by
  rw [paramWord, BitVec.extractLsb'_append_eq_of_le (by decide), BitVec.extractLsb'_append_eq_of_le (by decide)]
  exact BitVec.extractLsb'_append_eq_right

theorem paramWord_reserved (nch depth : Nat) : (paramWord nch depth).extractLsb' 24 8 = 0 := by
  rw [paramWord, BitVec.extractLsb'_append_eq_of_le (by decide), BitVec.extractLsb'_append_eq_of_le (by decide)]
  exact BitVec.extractLsb'_append_eq_left

/-- R9's constraints, without the Boolean. -/
theorem State.paramsOk_iff (s : State) :
    s.paramsOk = true ↔ (1 ≤ s.numChannels ∧ s.numChannels ≤ 16) ∧ 1 ≤ s.queueDepth ∧ s.queueDepth ≤ 255 := by
  simp only [State.paramsOk, Bool.and_eq_true, decide_eq_true_eq]

/-! ### The parameters over an instruction -/

/-- The two states are of blocks with the same NUM_CHANNELS and QUEUE_DEPTH (R8). -/
def State.SameParams (s t : State) : Prop := t.numChannels = s.numChannels ∧ t.queueDepth = s.queueDepth

/-- PARAM is a function of the parameters (R109). -/
theorem State.SameParams.readReg_param {s t : State} (h : s.SameParams t) : t.readReg .param = s.readReg .param := by
  obtain ⟨hn, hq⟩ := h
  simp only [State.readReg, hn, hq]

/-- A change of one channel leaves their number. -/
theorem State.sameParams_modifyChan (s : State) (ch : Nat) (f : Channel → Channel) : s.SameParams (s.modifyChan ch f) :=
  ⟨List.length_modify f _ ch, rfl⟩

theorem State.sameParams_writeReg (s : State) (v : Word) (r : Reg) : s.SameParams (s.writeReg v r) := by
  cases r with
  | chCfg ch => exact s.sameParams_modifyChan ch _
  | _ => exact ⟨rfl, rfl⟩

/-- A reset takes the block's own parameters over (R8, R801). -/
theorem State.sameParams_resetWith (s : State) (n clock : Nat) (pending : List Stimulus) :
    s.SameParams (State.resetWith s.numChannels s.queueDepth n clock pending) :=
  ⟨by simp [State.resetWith, State.numChannels], rfl⟩

/-- Every command completes in a block with the same parameters. -/
theorem runCommand_sameParams (c : Command) (s : State) : ∃ t, runCommand c s = .next t ∧ s.SameParams t := by
  cases c with
  | nop => exact ⟨_, rfl, rfl, rfl⟩
  | badCmd w => exact ⟨_, rfl, rfl, rfl⟩
  | clrCnt ch =>
    rcases execClrCnt_cases ch s with ⟨_, h⟩ | ⟨_, h⟩
    · exact ⟨_, h, s.sameParams_modifyChan ch.toNat _⟩
    · exact ⟨_, h, rfl, rfl⟩
  | keyExpand => rcases execKeyExpand_cases s with ⟨_, h⟩ | ⟨_, h⟩ <;> exact ⟨_, h, rfl, rfl⟩
  | reinit => rcases execReinit_cases s with ⟨_, h⟩ | ⟨_, h⟩ <;> exact ⟨_, h, rfl, rfl⟩
  | encBlk => rcases execEncBlk_cases s with ⟨_, h⟩ | ⟨_, h⟩ <;> exact ⟨_, h, rfl, rfl⟩
  | decBlk => rcases execDecBlk_cases s with ⟨_, h⟩ | ⟨_, h⟩ <;> exact ⟨_, h, rfl, rfl⟩
  | padEnc => rcases execPadEnc_cases s with ⟨_, _, h⟩ | ⟨_, _, h⟩ | ⟨_, h⟩ <;> exact ⟨_, h, rfl, rfl⟩
  | decUnpad =>
    rcases execDecUnpad_cases s with ⟨_, _, _, h⟩ | ⟨_, _, _, h⟩ | ⟨_, _, h⟩ | ⟨_, h⟩ <;> exact ⟨_, h, rfl, rfl⟩

/-- Every instruction ends in a block with the same parameters: a change of the channels is a change of some channels in place. -/
theorem exec_sameParams (i : Instr) (s : State) : ∃ t, exec i s = .next t ∧ s.SameParams t := by
  cases i with
  | nop => exact runCommand_sameParams .nop s
  | keyExpand => exact runCommand_sameParams .keyExpand s
  | encBlk => exact runCommand_sameParams .encBlk s
  | decBlk => exact runCommand_sameParams .decBlk s
  | padEnc => exact runCommand_sameParams .padEnc s
  | decUnpad => exact runCommand_sameParams .decUnpad s
  | reinit => exact runCommand_sameParams .reinit s
  | clrCnt ch => exact runCommand_sameParams (.clrCnt ch) s
  | badCmd w => exact runCommand_sameParams (.badCmd w) s
  | rxByte ch b => exact ⟨_, rfl, s.sameParams_modifyChan ch.toNat _⟩
  | tick => exact ⟨_, rfl, List.length_map _, rfl⟩
  | txDone ch fail => exact ⟨_, rfl, s.sameParams_modifyChan ch.toNat _⟩
  | evReserved e => exact ⟨_, rfl, rfl, rfl⟩
  | workerPop ch => exact ⟨_, rfl, s.sameParams_modifyChan ch.toNat _⟩
  | hostWr size off v =>
    rcases execHostWr_cases size off v s with ⟨_, h⟩ | ⟨_, _, _, h⟩ | ⟨r, _, _, h⟩
    · exact ⟨_, h, rfl, rfl⟩
    · obtain ⟨t, ht, hs⟩ := runCommand_sameParams (decodeCmd s.numChannels v) s
      exact ⟨t, h.trans ht, hs⟩
    · exact ⟨_, h, s.sameParams_writeReg v r⟩
  | hostRd size off => rcases execHostRd_cases size off s with ⟨_, h⟩ | ⟨_, _, h⟩ <;> exact ⟨_, h, rfl, rfl⟩
  | reset => exact ⟨_, rfl, s.sameParams_resetWith _ _ _⟩

theorem exec_readReg_param {i : Instr} {s t : State} (h : exec i s = .next t) : t.readReg .param = s.readReg .param := by
  obtain ⟨u, hu, hs⟩ := exec_sameParams i s
  cases hu.symm.trans h
  exact hs.readReg_param

end Sys2Proof.Machine

namespace Sys2Proof
open Sys2Proof.Machine

/-- Settles O15: R9's bounds make both parameters fit their byte of the word, and no instruction changes either. -/
theorem paramRegisterConstant : Obligations.ParamRegisterConstant := by
  intro s hs
  obtain ⟨⟨-, hn⟩, -, hq⟩ := s.paramsOk_iff.1 hs
  refine ⟨?_, ?_, paramWord_maxMsg _ _, paramWord_reserved _ _, fun _ _ h => exec_readReg_param h⟩
  · rw [State.readReg, paramWord_nch, BitVec.toNat_ofNat, Nat.mod_eq_of_lt (by omega)]
  · rw [State.readReg, paramWord_depth, BitVec.toNat_ofNat, Nat.mod_eq_of_lt (by omega)]

end Sys2Proof
end

section
/-! PROOFS. The host bus: bus errors (R202, R203), write-only and read-only registers (R204). -/

namespace Sys2Proof.Machine

/-! ### Which offsets reach a register -/

theorem blockReg_eq_none_iff {k : Nat} : blockReg k = none ↔ k = 6 ∨ k = 7 ∨ 20 ≤ k := by
  by_cases hk : k < 20
  · have listed : ∀ k < 20, (blockReg k = none ↔ k = 6 ∨ k = 7 ∨ 20 ≤ k) := by decide
    exact listed k hk
  · obtain ⟨m, rfl⟩ := Nat.exists_eq_add_of_le' (not_lt.1 hk)
    exact iff_of_true rfl (by omega)

/-- R201's map leaves out the ranges it names and no others, whatever the number of channels. -/
theorem mappedReg_eq_none_iff {nch n : Nat} (hn : n < 0x400) : mappedReg nch n = none ↔ unmapped nch n := by
  unfold mappedReg unmapped
  split_ifs
  · rw [blockReg_eq_none_iff]
    omega
  all_goals
    simp only [true_iff, false_iff]
    omega

theorem regAt_eq_none_iff {nch n : Nat} (hn : n < 0x400) : regAt nch n = none ↔ n % 4 ≠ 0 ∨ unmapped nch n := by
  rw [regAt, ite_eq_right_iff, mappedReg_eq_none_iff hn]
  exact imp_iff_not_or

/-- The accesses that are bus errors (R202, R203). -/
theorem State.accessReg_eq_none_iff {s : State} {size : AccessSize} {off : BitVec 10} :
    s.accessReg size off = none ↔ size ≠ .word ∨ off.toNat % 4 ≠ 0 ∨ unmapped s.numChannels off.toNat := by
  rw [State.accessReg, ite_eq_right_iff, regAt_eq_none_iff off.isLt]
  exact imp_iff_not_or

/-- A word access to a mapped offset reaches the register there. -/
theorem State.exists_accessReg {s : State} {off : BitVec 10} (h4 : off.toNat % 4 = 0) (hm : ¬ unmapped s.numChannels off.toNat) :
    ∃ r, s.accessReg .word off = some r ∧ r.offset = off.toNat := by
  have hne : s.accessReg .word off ≠ none := by simp [State.accessReg_eq_none_iff, h4, hm]
  obtain ⟨r, hr⟩ := Option.ne_none_iff_exists'.1 hne
  exact ⟨r, hr, (regAt_some (State.accessReg_some hr).2).1⟩

/-! ### What an access does, by the register it reaches -/

section
variable {s : State} {size : AccessSize} {off : BitVec 10} {r : Reg}

theorem exec_hostRd_of_none (h : s.accessReg size off = none) : exec (.hostRd size off) s = .next s.busError := by
  simp only [exec, execHostRd, h]

theorem exec_hostWr_of_none (h : s.accessReg size off = none) (v : Word) : exec (.hostWr size off v) s = .next s.busError := by
  simp only [exec, execHostWr, h]

theorem exec_hostRd_of_some (h : s.accessReg size off = some r) : exec (.hostRd size off) s = .next (s.respond (s.readReg r)) := by
  simp only [exec, execHostRd, h]

theorem exec_hostWr_of_some (h : s.accessReg size off = some r) (hr : r ≠ .cmd) (v : Word) :
    exec (.hostWr size off v) s = .next ((s.writeReg v r).respond 0) := by
  rcases execHostWr_cases size off v s with ⟨hn, _⟩ | ⟨_, _, hc, _⟩ | ⟨q, _, hq, he⟩
  · cases h.symm.trans hn
  · exact absurd (Option.some.inj (h.symm.trans hc)) hr
  · cases h.symm.trans hq
    exact he

end

/-! ### Write-only and read-only registers -/

/-- The registers at R201's WO offsets read 0 (R204). -/
theorem State.readReg_writeOnly (s : State) {r : Reg} (h : r.offset = 0 ∨ (0x020 ≤ r.offset ∧ r.offset < 0x030)) :
    s.readReg r = 0 := by
  cases r with
  | cmd | key i => rfl
  | status | resync | msgLen | ctLen | param | din i | dout i | chCfg ch | chStat ch | qdrop ch | txfail ch | mbuf i | cbuf i =>
    simp only [Reg.offset] at h
    omega

/-- The registers at R201's RO offsets are not CMD, and ignore a write (R204). -/
theorem State.writeReg_readOnly (s : State) (v : Word) {r : Reg}
    (h : r.offset = 0x004 ∨ r.offset = 0x014 ∨ (0x040 ≤ r.offset ∧ r.offset < 0x050) ∨
      (0x100 ≤ r.offset ∧ r.offset < 0x200 ∧ r.offset % 0x10 ≠ 0)) :
    r ≠ .cmd ∧ s.writeReg v r = s := by
  cases r with
  | status | param | dout i | chStat ch | qdrop ch | txfail ch => exact ⟨nofun, rfl⟩
  | cmd | resync | msgLen | ctLen | key i | din i | chCfg ch | mbuf i | cbuf i =>
    simp only [Reg.offset] at h
    omega

end Sys2Proof.Machine

namespace Sys2Proof
open Sys2Proof.Machine

/-- Settles O40: the accesses it names are those that reach no register. -/
theorem busErrorsChangeNothing : Obligations.BusErrorsChangeNothing := by
  intro s size off v h
  have hn : s.accessReg size off = none := State.accessReg_eq_none_iff.2 h
  exact ⟨exec_hostRd_of_none hn, exec_hostWr_of_none hn v⟩

/-- Settles O41: the offsets it names are mapped, and the register at each reads 0 or ignores the write. -/
theorem writeOnlyAndReadOnly : Obligations.WriteOnlyAndReadOnly := by
  intro s off v
  constructor
  · intro h4 hw
    obtain ⟨r, hr, ho⟩ := s.exists_accessReg h4 (by unfold unmapped; omega)
    rw [exec_hostRd_of_some hr, s.readReg_writeOnly (by omega)]
    rfl
  · intro h4 hw
    obtain ⟨r, hr, ho⟩ := s.exists_accessReg h4 (by unfold unmapped; omega)
    obtain ⟨hc, hs⟩ := s.writeReg_readOnly v (r := r) (by omega)
    rw [exec_hostWr_of_some hr hc, hs]
    rfl

end Sys2Proof
end

section
/-! PROOFS. The fields of command and event words as numbers (30_encoding.md R301, R306). -/

namespace Sys2Proof

theorem toNat_cmdOp (w : Word) : (cmdOp w).toNat = w.toNat % 16 := by
  simp [cmdOp, BitVec.extractLsb'_toNat]

theorem toNat_cmdCh (w : Word) : (cmdCh w).toNat = w.toNat / 16 % 16 := by
  simp [cmdCh, BitVec.extractLsb'_toNat, Nat.shiftRight_eq_div_pow]

theorem toNat_cmdRes (w : Word) : (cmdRes w).toNat = w.toNat / 256 := by
  have := w.isLt
  simp only [cmdRes, BitVec.extractLsb'_toNat, Nat.shiftRight_eq_div_pow]
  omega

theorem toNat_evKind (e : BitVec 16) : (evKind e).toNat = e.toNat / 4096 := by
  have := e.isLt
  simp only [evKind, BitVec.extractLsb'_toNat, Nat.shiftRight_eq_div_pow]
  omega

theorem toNat_evCh (e : BitVec 16) : (evCh e).toNat = e.toNat / 256 % 16 := by
  simp [evCh, BitVec.extractLsb'_toNat, Nat.shiftRight_eq_div_pow]

theorem toNat_evData (e : BitVec 16) : (evData e).toNat = e.toNat % 256 := by
  simp [evData, BitVec.extractLsb'_toNat]

theorem cmdCh_eq_ofNat (w : Word) : cmdCh w = BitVec.ofNat 4 (w.toNat / 16) := by
  rw [← BitVec.toNat_inj, toNat_cmdCh, BitVec.toNat_ofNat]

theorem evCh_eq_ofNat (e : BitVec 16) : evCh e = BitVec.ofNat 4 (e.toNat / 256) := by
  rw [← BitVec.toNat_inj, toNat_evCh, BitVec.toNat_ofNat]

theorem evData_eq_ofNat (e : BitVec 16) : evData e = BitVec.ofNat 8 e.toNat := by
  rw [← BitVec.toNat_inj, toNat_evData, BitVec.toNat_ofNat]

end Sys2Proof
end

section
/-! PROOFS. Command words: R311's map by number, and the invalid words (R304, R401). -/

namespace Sys2Proof

/-! ### decodeCmd's conditions on the fields, as conditions on the number -/

theorem cmdRes_eq_zero_iff {w : Word} : cmdRes w = 0 ↔ w.toNat < 256 := by
  rw [← BitVec.toNat_inj, toNat_cmdRes]
  exact Nat.div_eq_zero_iff_lt (by decide)

/-- A command that does not use CH is one word, the number of its OP (R302). -/
theorem cmdOp_eq_and_cmdCh_eq_zero_iff {w : Word} (h : w.toNat < 256) (op : BitVec 4) :
    (cmdOp w = op ∧ cmdCh w = 0) ↔ w = op.setWidth 32 := by
  have := op.isLt
  rw [← BitVec.toNat_inj, ← BitVec.toNat_inj, ← BitVec.toNat_inj, toNat_cmdOp, toNat_cmdCh, BitVec.toNat_setWidth,
    show (0 : BitVec 4).toNat = 0 from rfl]
  omega

/-- CLR_CNT's words (R302, R303). -/
theorem cmdOp_eq_seven_and_cmdCh_lt_iff {nch : Nat} {w : Word} (h : w.toNat < 256) :
    (cmdOp w = 7 ∧ (cmdCh w).toNat < nch) ↔ w.toNat < 256 ∧ w.toNat % 16 = 7 ∧ w.toNat / 16 < nch := by
  rw [← BitVec.toNat_inj, toNat_cmdOp, toNat_cmdCh, show (7 : BitVec 4).toNat = 7 from rfl]
  omega

/-- Settles O3: on a word whose RES is 0 each condition on the fields is one on the number; no word of R311 has another RES. -/
theorem commandWordMap : Obligations.CommandWordMap := by
  intro nch w
  by_cases hw : w.toNat < 256
  · simp only [decodeCmd, cmdRes_eq_zero_iff.2 hw, cmdOp_eq_and_cmdCh_eq_zero_iff hw, cmdOp_eq_seven_and_cmdCh_lt_iff hw]
    rw [cmdCh_eq_ofNat]
    rfl
  · have hk : ∀ k : Word, k.toNat < 256 → w ≠ k := by
      rintro k hk rfl
      exact hw hk
    rw [decodeCmd, if_pos (mt cmdRes_eq_zero_iff.1 hw)]
    simp (disch := decide) only [hk, hw, false_and, if_false]

/-- The invalid words are those R311 does not list: eight of its nine answers are another command. -/
theorem decodeCmd_eq_badCmd_iff {nch : Nat} {w : Word} :
    decodeCmd nch w = .badCmd w ↔ 7 ≤ w.toNat ∧ ¬(w.toNat < 256 ∧ w.toNat % 16 = 7 ∧ w.toNat / 16 < nch) := by
  rw [commandWordMap nch w]
  split_ifs
  iterate 8 exact iff_of_false nofun (by bv_omega)
  exact iff_of_true rfl (by bv_omega)

namespace Machine

/-- A 32-bit write of offset 0 executes the command its value encodes (R400). -/
theorem exec_hostWr_cmd (v : Word) (s : State) :
    exec (.hostWr .word 0 v) s = runCommand (decodeCmd s.numChannels v) s := rfl

/-- BADCMD (R401): ERR, and the CMD write answered without error. -/
theorem runCommand_badCmd (w : Word) (s : State) :
    runCommand (.badCmd w) s = .next { s with err := .badCmd, resp := some ⟨false, 0⟩ } := rfl

end Machine

open Sys2Proof.Machine

/-- Settles O4: R304's four conditions say that the word is none of R311's valid ones. -/
theorem invalidCommandWords : Obligations.InvalidCommandWords := by
  intro s w op ch res invalid
  have hb : decodeCmd s.numChannels w = .badCmd w ↔ invalid := by
    rw [decodeCmd_eq_badCmd_iff]
    omega
  exact ⟨fun hi => by rw [exec_hostWr_cmd, hb.2 hi, runCommand_badCmd], mt hb.1⟩

end Sys2Proof
end

section
/-! PROOFS. Event words: R312's map by number. -/

namespace Sys2Proof

/-! ### decodeEv's conditions on the fields, as conditions on the number -/

theorem evKind_eq_iff (e : BitVec 16) (k : BitVec 4) : evKind e = k ↔ e.toNat / 4096 = k.toNat := by
  rw [← BitVec.toNat_inj, toNat_evKind]

/-- TICK is one word (R307). -/
theorem tickFields_iff (e : BitVec 16) : (evKind e = 2 ∧ evCh e = 0 ∧ evData e = 0) ↔ e = 0x2000 := by
  constructor
  · rintro ⟨hk, hc, hd⟩
    rw [← evWord_fields e, hk, hc, hd]
    rfl
  · rintro rfl
    decide

/-- TX_DONE's reserved bits DATA[7:1] (R307). -/
theorem evData_reserved_eq_zero_iff (e : BitVec 16) : (evData e).extractLsb' 1 7 = 0 ↔ e.toNat % 256 ≤ 1 := by
  rw [← BitVec.toNat_inj, BitVec.extractLsb'_toNat, Nat.shiftRight_eq_div_pow, toNat_evData]
  change _ = 0 ↔ _
  omega

/-- TX_DONE's FAIL bit (R307). -/
theorem evData_getLsbD_zero (e : BitVec 16) : (evData e).getLsbD 0 = (e.toNat % 2 == 1) := by
  rw [← BitVec.testBit_toNat, toNat_evData, Nat.testBit_zero, Nat.mod_mod_of_dvd _ (by decide)]
  rfl

/-- Settles O5: each condition of decodeEv on the fields, and each operand, is one of the number. -/
theorem eventWordMap : Obligations.EventWordMap := by
  intro e
  -- TICK's condition goes first: it is about all three fields at once
  simp only [decodeEv, tickFields_iff, evData_reserved_eq_zero_iff, evData_getLsbD_zero]
  simp only [evKind_eq_iff, evCh_eq_ofNat, evData_eq_ofNat]
  rfl

end Sys2Proof
end

section
/-! PROOFS. The event words that are ignored (R308, R602). -/

namespace Sys2Proof.Machine

/-- A change that leaves the channel as it is, or whose channel does not exist, is no change of the state. -/
theorem State.modifyChan_eq_self {s : State} {ch : Nat} {f : Channel → Channel} (h : ∀ c, s.chans[ch]? = some c → f c = c) :
    s.modifyChan ch f = s := by
  cases hc : s.chans[ch]? with
  | none => exact State.modifyChan_none hc f
  | some c =>
    obtain ⟨_, rfl⟩ := List.getElem?_eq_some_iff.1 hc
    rw [State.modifyChan_eq_set hc, h _ hc, List.set_getElem_self]

theorem Channel.rxByte_of_disabled {c : Channel} (h : c.en = false) (thresh : BitVec 16) (depth : Nat) (b : Byte) :
    c.rxByte thresh depth b = c := by
  rcases Channel.rxByte_cases thresh depth b c with ⟨_, hr⟩ | ⟨he, _⟩ | ⟨he, _⟩
  · exact hr
  · cases h.symm.trans he
  · cases h.symm.trans he

/-- A byte on an absent or a disabled channel changes nothing (R602). -/
theorem exec_rxByte_of_ignored {s : State} {ch : BitVec 4} (b : Byte)
    (h : s.numChannels ≤ ch.toNat ∨ ∃ c, s.chans[ch.toNat]? = some c ∧ c.en = false) : exec (.rxByte ch b) s = .next s := by
  refine congrArg Host.Outcome.next (State.modifyChan_eq_self fun c hc => ?_)
  rcases h with habsent | ⟨c', hc', hen⟩
  · cases (List.getElem?_eq_none habsent).symm.trans hc
  · cases hc.symm.trans hc'
    exact Channel.rxByte_of_disabled hen _ _ _

end Sys2Proof.Machine

namespace Sys2Proof
open Sys2Proof.Machine

/-- Settles O35: by R312's map an ignored word is RX_BYTE on an absent channel or EV_RESERVED, never TICK or TX_DONE. -/
theorem ignoredEvents : Obligations.IgnoredEvents := by
  intro s
  refine ⟨fun e he => ?_, fun _ => rfl, fun _ b => exec_rxByte_of_ignored b⟩
  rw [eventWordMap e]
  split_ifs with hrx htick htx
  · refine exec_rxByte_of_ignored _ (.inl ?_)
    rw [BitVec.toNat_ofNat]
    omega
  · subst htick
    simp at he
  · omega
  · rfl

end Sys2Proof
end

section
/-! PROOFS. Commands (40_command_dispatch.md): the CMD write, NOP, BADCMD, CLR_CNT, and the result code of every command. -/

namespace Sys2Proof.Machine

/-! ### Ending a command -/

/-- A command that ends with `e` writes ERR, and its CMD write is answered without error (R400, R403). -/
theorem State.finish_eq (s : State) (e : Err) : s.finish e = { s with err := e, resp := some ⟨false, 0⟩ } := rfl

theorem State.fail_eq (s : State) (e : Err) : s.fail e = { s with err := e, resp := some ⟨false, 0⟩ } := rfl

/-! ### NOP, CLR_CNT and the CMD write -/

theorem exec_nop (s : State) : exec .nop s = .next (s.finish .ok) := rfl

/-- A 32-bit write of CMD is the command its value encodes (R300, R400). -/
theorem decodeStimulus_hostWrite_cmd (nch : Nat) (v : Word) :
    decodeStimulus nch (.hostWrite .word 0 v) = (decodeCmd nch v).toInstr := by
  simp only [decodeStimulus, and_self, if_true]

section
variable {s : State} {ch : BitVec 4}

/-- CLR_CNT on an existing channel (R405). -/
theorem exec_clrCnt_of_some {c : Channel} (h : s.chans[ch.toNat]? = some c) :
    exec (.clrCnt ch) s = .next ({ s with chans := s.chans.set ch.toNat c.clearCounters }.finish .ok) := by
  have hlt : ch.toNat < s.numChannels := (List.getElem?_eq_some_iff.1 h).1
  rcases execClrCnt_cases ch s with ⟨-, he⟩ | ⟨hge, -⟩
  · rw [← State.modifyChan_eq_set h]
    exact he
  · exact absurd hlt hge.not_gt

/-- CLR_CNT on an absent channel (R304, R405). -/
theorem exec_clrCnt_of_absent (h : s.numChannels ≤ ch.toNat) : exec (.clrCnt ch) s = .next (s.fail .badCmd) := by
  rcases execClrCnt_cases ch s with ⟨hlt, -⟩ | ⟨-, he⟩
  · exact absurd hlt h.not_gt
  · exact he

end

/-! ### The result of a command (R402) -/

/-- The outcome `o` of a command executed in `s` is a next state with result `e`, and a failing one is `fail e` (R402, R13). -/
def Completes (s : State) (e : Err) (o : Host.Outcome State Fault Refusal) : Prop :=
  ∃ t, o = .next t ∧ t.err = e ∧ (e ≠ .ok → t = s.fail e)

/-- A successful command may have written anything before it finished. -/
theorem completes_finish_ok (s u : State) : Completes s .ok (.next (u.finish .ok)) := ⟨_, rfl, rfl, fun h => absurd rfl h⟩

theorem completes_fail (s : State) (e : Err) : Completes s e (.next (s.fail e)) := ⟨_, rfl, rfl, fun _ => rfl⟩

/-- The next state of a command that completes: its ERR, and that a failure wrote nothing else. -/
theorem Completes.err_and_frame {s t : State} {e : Err} {o : Host.Outcome State Fault Refusal} (hc : Completes s e o)
    (h : o = .next t) : t.err = e ∧ (t.err ≠ .ok → t = { s with err := t.err, resp := some ⟨false, 0⟩ }) := by
  obtain ⟨u, hu, rfl, hfail⟩ := hc
  cases hu.symm.trans h
  exact ⟨rfl, hfail⟩

/-- A command with one check, `b`, which fails with `e`: the form in which the laws say what KEY_EXPAND, REINIT, ENC_BLK and DEC_BLK
can do. -/
theorem completes_of_check {s u : State} {b : Bool} {e : Err} {o : Host.Outcome State Fault Refusal}
    (h : (b = true ∧ o = .next (u.finish .ok)) ∨ (b = false ∧ o = .next (s.fail e))) :
    Completes s (if b then .ok else e) o := by
  rcases h with ⟨rfl, rfl⟩ | ⟨rfl, rfl⟩
  · exact completes_finish_ok s u
  · exact completes_fail s e

/-- CLR_CNT: BADCMD where there is no such channel (R304, R405). -/
theorem execClrCnt_completes (ch : BitVec 4) (s : State) :
    Completes s (if ch.toNat < s.numChannels then .ok else .badCmd) (execClrCnt ch s) := by
  rcases execClrCnt_cases ch s with ⟨hc, he⟩ | ⟨hc, he⟩
  · rw [he, if_pos hc]
    exact completes_finish_ok s _
  · rw [he, if_neg hc.not_gt]
    exact completes_fail s _

/-- PAD_ENC: NOKEY, then BUFOVF (R552). -/
theorem execPadEnc_completes (s : State) :
    Completes s (if s.rkv = false then .noKey else if s.msgLen.toNat ≥ 128 then .bufOvf else .ok) (execPadEnc s) := by
  rcases execPadEnc_cases s with ⟨hk, hl, he⟩ | ⟨hk, hl, he⟩ | ⟨hk, he⟩
  · rw [he, if_neg (by simp [hk]), if_neg (by omega)]
    exact completes_finish_ok s _
  · rw [he, if_neg (by simp [hk]), if_pos hl]
    exact completes_fail s _
  · rw [he, if_pos hk]
    exact completes_fail s _

/-- The lengths R554 refuses. -/
theorem State.ctLenOk_eq_false_iff (s : State) :
    s.ctLenOk = false ↔ s.ctLen.toNat = 0 ∨ s.ctLen.toNat % 16 ≠ 0 ∨ s.ctLen.toNat > 128 := by
  rw [← Bool.not_eq_true, State.ctLenOk_iff]
  omega

/-- DEC_UNPAD: NOKEY, then BADLEN, then INVPAD (R554). -/
theorem execDecUnpad_completes (s : State) :
    Completes s
      (if s.rkv = false then .noKey
        else if s.ctLen.toNat = 0 ∨ s.ctLen.toNat % 16 ≠ 0 ∨ s.ctLen.toNat > 128 then .badLen
        else if padAccepted s.plaintext then .ok else .invPad)
      (execDecUnpad s) := by
  simp only [← State.ctLenOk_eq_false_iff]
  rcases execDecUnpad_cases s with ⟨hk, hl, hp, he⟩ | ⟨hk, hl, hp, he⟩ | ⟨hk, hl, he⟩ | ⟨hk, he⟩
  · rw [he, hk, hl, hp]
    exact completes_finish_ok s _
  · rw [he, hk, hl, hp]
    exact completes_fail s _
  · rw [he, hk, hl]
    exact completes_fail s _
  · rw [he, hk]
    exact completes_fail s _

end Sys2Proof.Machine

namespace Sys2Proof
open Sys2Proof.Machine

/-- Settles O45: both ways in run the decoded command, and the decoder takes a 32-bit write of offset 0 for it. -/
theorem cmdWriteExecutesCommand : Obligations.CmdWriteExecutesCommand := by
  intro s v
  exact ⟨(exec_hostWr_cmd v s).trans (runCommand_eq_exec _ s), decodeStimulus_hostWrite_cmd _ v⟩

/-- Settles O16: NOP only finishes. -/
theorem nopWritesOnlyErr : Obligations.NopWritesOnlyErr := by
  intro s
  rw [exec_nop, State.finish_eq]

/-- Settles O17: BADCMD does not look at its word. -/
theorem badCmdWritesOnlyErr : Obligations.BadCmdWritesOnlyErr :=
  ⟨fun w s => (runCommand_eq_exec (.badCmd w) s).symm.trans (runCommand_badCmd w s), rfl⟩

/-- Settles O18: the two cases of the channel CLR_CNT names. -/
theorem clrCntClearsOneChannel : Obligations.ClrCntClearsOneChannel := by
  intro s ch
  constructor
  · intro c hc
    rw [exec_clrCnt_of_some hc, State.finish_eq, Channel.clearCounters]
  · intro habsent
    rw [exec_clrCnt_of_absent habsent, State.fail_eq]

/-- Settles O25: each command completes with the first of its conditions that fails, or with OK; the other instructions are no
commands. -/
theorem commandResultPrecedence : Obligations.CommandResultPrecedence := by
  intro s t i hi h
  cases i with
  | nop => exact (completes_finish_ok s s).err_and_frame h
  | badCmd w => exact (completes_fail s .badCmd).err_and_frame h
  | clrCnt ch => exact (execClrCnt_completes ch s).err_and_frame h
  | keyExpand => exact (completes_of_check (execKeyExpand_cases s)).err_and_frame h
  | reinit => exact (completes_of_check (execReinit_cases s)).err_and_frame h
  | encBlk => exact (completes_of_check (execEncBlk_cases s)).err_and_frame h
  | decBlk => exact (completes_of_check (execDecBlk_cases s)).err_and_frame h
  | padEnc => exact (execPadEnc_completes s).err_and_frame h
  | decUnpad => exact (execDecUnpad_completes s).err_and_frame h
  | rxByte | tick | txDone | evReserved | workerPop | hostWr | hostRd | reset => cases hi

end Sys2Proof
end

section
/-! PROOFS. The key commands (42_key_expansion.md): KEY_EXPAND and REINIT, and that no answer of the host bus shows the key. -/

namespace Sys2Proof.Machine

/-! ### KEY_EXPAND and REINIT -/

/-- A command with one check, `b`, read as two implications: the form in which R475 and R476 say what KEY_EXPAND and REINIT do. -/
theorem imp_and_imp_of_check {b : Bool} {P Q : Prop} (h : (b = true ∧ P) ∨ (b = false ∧ Q)) :
    (b = true → P) ∧ (b = false → Q) := by
  rcases h with ⟨rfl, hP⟩ | ⟨rfl, hQ⟩
  · exact ⟨fun _ => hP, nofun⟩
  · exact ⟨nofun, fun _ => hQ⟩

/-- The ways to break quiescence (R407): a channel enabled, with a frame queued, or with its consumer in HOLD. -/
theorem State.quiescent_eq_false_iff (s : State) :
    s.quiescent = false ↔ ∃ c ∈ s.chans, c.en = true ∨ c.q ≠ [] ∨ c.w ≠ .idle := by
  rw [← Bool.not_eq_true, s.quiescent_iff]
  simp only [not_forall, not_and_or, exists_prop, Bool.not_eq_false, ne_eq]

/-! ### The host bus and the key (R478) -/

/-- The state with other key registers, another latched key and another schedule. -/
def State.withKeys (s : State) (key latched : Block) (rks : Schedule) : State :=
  { s with key := key, keyLatched := latched, rks := rks }

/-- No register's word shows them: KEY0..KEY3 read 0, and the other two have no offset (R204, R478). -/
theorem State.readReg_withKeys (s : State) (key latched : Block) (rks : Schedule) (r : Reg) :
    (s.withKeys key latched rks).readReg r = s.readReg r := by
  cases r <;> rfl

/-- Nor does which accesses reach a register (R202, R203). -/
theorem State.accessReg_withKeys (s : State) (key latched : Block) (rks : Schedule) (size : AccessSize) (off : BitVec 10) :
    (s.withKeys key latched rks).accessReg size off = s.accessReg size off := rfl

/-- A read is answered alike whatever the keys are, and changes nothing but its answer (R209, R478). -/
theorem exec_hostRd_withKeys (s : State) (key latched : Block) (rks : Schedule) (size : AccessSize) (off : BitVec 10) :
    ∃ resp, exec (.hostRd size off) s = .next { s with resp := resp } ∧
      exec (.hostRd size off) (s.withKeys key latched rks) = .next { s.withKeys key latched rks with resp := resp } := by
  have hreach := s.accessReg_withKeys key latched rks size off
  cases h : s.accessReg size off with
  | none => exact ⟨_, exec_hostRd_of_none h, exec_hostRd_of_none (hreach.trans h)⟩
  | some r =>
    have hread := exec_hostRd_of_some (hreach.trans h)
    rw [s.readReg_withKeys] at hread
    exact ⟨_, exec_hostRd_of_some h, hread⟩

/-- A write is answered with data 0, and with the error bit exactly where it reaches no register (R202, R400). -/
theorem exec_hostWr_resp (size : AccessSize) (off : BitVec 10) (v : Word) (s : State) :
    ∃ t, exec (.hostWr size off v) s = .next t ∧ t.resp = some ⟨(s.accessReg size off).isNone, 0⟩ := by
  rcases execHostWr_cases size off v s with ⟨hr, he⟩ | ⟨-, -, hr, he⟩ | ⟨r, -, hr, he⟩
  · rw [hr]
    exact ⟨_, he, rfl⟩
  · obtain ⟨t, ht, hresp⟩ := runCommand_next (decodeCmd s.numChannels v) s
    rw [hr]
    exact ⟨t, he.trans ht, hresp⟩
  · rw [hr]
    exact ⟨_, he, rfl⟩

end Sys2Proof.Machine

namespace Sys2Proof
open Sys2Proof.Machine

/-- Settles O46: an answer depends on the register reached and its word, and neither shows the keys. -/
theorem keyNotReadable : Obligations.KeyNotReadable := by
  intro s key latched rks size off s'
  constructor
  · obtain ⟨resp, hs, hs'⟩ := exec_hostRd_withKeys s key latched rks size off
    refine ⟨resp, hs, hs', ?_⟩
    rintro rfl h4 hlo hhi
    have hzero := (writeOnlyAndReadOnly s off 0).1 h4 (.inr ⟨hlo, hhi⟩)
    cases hs.symm.trans hzero
    rfl
  · intro v
    obtain ⟨t, ht, hresp⟩ := exec_hostWr_resp size off v s
    obtain ⟨t', ht', hresp'⟩ := exec_hostWr_resp size off v s'
    exact ⟨t, t', ht, ht', hresp'.trans hresp.symm⟩

/-- Settles O19: KEY_EXPAND's one check is quiescence, and the three ways to fail it are R475's. -/
theorem keyExpandNeedsQuiescence : Obligations.KeyExpandNeedsQuiescence := by
  intro s
  obtain ⟨hderive, hlock⟩ := imp_and_imp_of_check (execKeyExpand_cases s)
  exact ⟨fun h => hderive (s.quiescent_iff.2 h), fun h => hlock (s.quiescent_eq_false_iff.2 h)⟩

/-- Settles O20: REINIT's one check is RKV. -/
theorem reinitRederivesSchedule : Obligations.ReinitRederivesSchedule :=
  fun s => imp_and_imp_of_check (execReinit_cases s)

end Sys2Proof
end

section
/-! PROOFS. The block commands (43_round_transforms.md): ENC_BLK and DEC_BLK. -/

namespace Sys2Proof
open Sys2Proof.Machine

/-- Settles O22: each block command's one check is RKV; with a schedule it puts its cipher's block into DOUT, without one it fails
and DOUT stands (R510, R511). -/
theorem blockCipherResults : Obligations.BlockCipherResults := by
  intro s
  obtain ⟨encrypts, encNoKey⟩ := imp_and_imp_of_check (execEncBlk_cases s)
  obtain ⟨decrypts, decNoKey⟩ := imp_and_imp_of_check (execDecBlk_cases s)
  exact ⟨fun h => ⟨encrypts h, decrypts h⟩, fun h => ⟨encNoKey h, decNoKey h⟩⟩

end Sys2Proof
end

section
/-! PROOFS. The padding commands (44_padding.md): PAD_ENC and DEC_UNPAD, byte by byte. -/

namespace Sys2Proof

/-! ### Bytes of padded messages, of plaintexts and of blocks -/

/-- A block depends on its 16 bytes alone. -/
theorem Block.ofBytes_congr {f g : Nat → Byte} (h : ∀ k < 16, f k = g k) : Block.ofBytes f = Block.ofBytes g := by
  simp only [Block.ofBytes, h, Nat.reduceLT]

/-- Byte `n` of a sequence is byte `n mod 16` of its block `n div 16`. -/
theorem getD_toList_blockAt (m : List Byte) (n : Nat) : (blockAt m (n / 16)).toList.getD (n % 16) 0 = m.getD n 0 := by
  have hlt : n % 16 < ((List.range 16).map fun k => m.getD (16 * (n / 16) + k) 0).length := by simp; omega
  rw [blockAt, Block.toList_ofBytes, List.getD_eq_getElem _ _ hlt, List.getElem_map, List.getElem_range, Nat.div_add_mod]

/-- A padded message, byte by byte (R551). -/
theorem getD_pad (m : List Byte) {i : Nat} (h : i < padLen m.length) :
    (pad m).getD i 0 = if i < m.length then m.getD i 0 else BitVec.ofNat 8 (padLen m.length - m.length) := by
  unfold pad
  split
  · rw [List.getD_append _ _ _ _ ‹_›]
  · rw [List.getD_append_right _ _ _ _ (by omega), List.getD_replicate _ (by omega)]

/-- The pad value is the last byte (R553). -/
theorem padValue_eq_getD (d : List Byte) : padValue d = d.getD (d.length - 1) 0 := by
  rw [padValue, List.getLast?_eq_getElem?, List.getD_eq_getElem?_getD]

/-- The pad values R553 refuses. -/
theorem padAccepted_eq_false_iff (d : List Byte) :
    padAccepted d = false ↔ (padValue d).toNat = 0 ∨ (padValue d).toNat > 16 := by
  rw [padAccepted, decide_eq_false_iff_not]
  omega

/-- The message of a plaintext is its first bytes (R553). -/
theorem getD_unpad_append (d e : List Byte) {i : Nat} (h : i < (unpad d).length) : (unpad d ++ e).getD i 0 = d.getD i 0 := by
  rw [length_unpad] at h
  rw [List.getD_append _ _ _ _ (by rwa [length_unpad]), unpad, List.getD_eq_getElem?_getD, List.getElem?_take_of_lt h,
    List.getD_eq_getElem?_getD]

/-- What is written after a message stands at the message's length: R554's terminator. -/
theorem getD_unpad_append_length (d : List Byte) (b : Byte) : (unpad d ++ [b]).getD (unpad d).length 0 = b := by
  rw [List.getD_append_right _ _ _ _ le_rfl, Nat.sub_self, List.getD_cons_zero]

namespace Machine

/-! ### Buffer bytes -/

theorem State.getD_bufBytes (s : State) (a : Nat) {n i : Nat} (h : i < n) : (s.bufBytes a n).getD i 0 = s.bufByte (a + i) := by
  rw [List.getD_eq_getElem _ _ (by simpa), State.getElem_bufBytes]

/-- A byte of a write of consecutive bytes. -/
theorem State.bufByte_writeBuf_inside (s : State) (a : Nat) {bs : List Byte} {i : Nat} (h : i < bs.length) :
    (s.writeBuf a bs).bufByte (a + i) = bs.getD i 0 := by
  rw [State.bufByte_writeBuf, if_pos (by omega), Nat.add_sub_cancel_left, List.getD_eq_getElem?_getD]

/-- Sixteen bytes of a write of consecutive bytes, a block. -/
theorem State.bufBytes_writeBuf_block (s : State) (a : Nat) {bs : List Byte} {j : Nat} (h : 16 * j + 16 ≤ bs.length) :
    (s.writeBuf a bs).bufBytes (a + 16 * j) 16 = (blockAt bs j).toList := by
  rw [State.bufBytes, blockAt, Block.toList_ofBytes]
  refine List.map_congr_left fun k hk => ?_
  have hlt := List.mem_range.1 hk
  rw [Nat.add_assoc, s.bufByte_writeBuf_inside a (by omega)]

/-! ### What the two commands read -/

/-- Block `j` of the message PAD_ENC pads (R551, R552). -/
theorem State.blockAt_pad_message (s : State) {j : Nat} (h : 16 * j + 16 ≤ padLen s.msgLen.toNat) :
    blockAt (pad s.message) j = Block.ofBytes fun k =>
      if 16 * j + k < s.msgLen.toNat then s.bufByte (mbufBase + (16 * j + k))
      else BitVec.ofNat 8 (padLen s.msgLen.toNat - s.msgLen.toNat) := by
  refine Block.ofBytes_congr fun k hk => ?_
  rw [getD_pad _ (by rw [State.length_message]; omega), State.length_message]
  split
  · exact s.getD_bufBytes _ ‹_›
  · rfl

/-- Block `j` of what PAD_ENC writes (R552). -/
theorem State.blockAt_ciphertext (s : State) {j : Nat} (h : 16 * j + 16 ≤ padLen s.msgLen.toNat) :
    blockAt (mapBlocks (fun b => cipher b s.rks) (pad s.message)) j = cipher (blockAt (pad s.message) j) s.rks :=
  blockAt_mapBlocks _ _ _ (by rw [length_pad, State.length_message]; omega)

/-- Byte `n` of the plaintext, from the block of CBUF it lies in (R554). -/
theorem State.getD_plaintext {s : State} (hl : s.ctLenOk = true) {n : Nat} (h : n < s.ctLen.toNat) :
    s.plaintext.getD n 0 =
      (invCipher (Block.ofBytes fun k => s.bufByte (cbufBase + (16 * (n / 16) + k))) s.rks).toList.getD (n % 16) 0 := by
  obtain ⟨-, hmod, -⟩ := s.ctLenOk_iff.1 hl
  have hblock : blockAt (s.bufBytes cbufBase s.ctLen.toNat) (n / 16) =
      Block.ofBytes fun k => s.bufByte (cbufBase + (16 * (n / 16) + k)) :=
    Block.ofBytes_congr fun k hk => s.getD_bufBytes _ (by omega)
  rw [← getD_toList_blockAt, State.plaintext, blockAt_mapBlocks _ _ _ (by rw [State.length_bufBytes]; omega), hblock]

/-- The pad value DEC_UNPAD checks is the last decrypted byte (R553, R554). -/
theorem State.padValue_plaintext {s : State} (hl : s.ctLenOk = true) :
    padValue s.plaintext = s.plaintext.getD (s.ctLen.toNat - 1) 0 := by
  rw [padValue_eq_getD, State.length_plaintext hl]

end Machine

open Sys2Proof.Machine

/-- Settles O23: PAD_ENC's three cases; where it encrypts, block `j` of the bytes it writes is the cipher of block `j` of the
padded message, and a byte outside them stands. -/
theorem padEncResult : Obligations.PadEncResult := by
  intro s l p
  have hfits : p ≤ 128 ↔ l ≤ 127 := padLen_le_maxMsg l
  rcases execPadEnc_cases s with ⟨hk, hl, he⟩ | ⟨hk, hl, he⟩ | ⟨hk, he⟩
  · refine ⟨by simp [hk], fun _ h => by omega, fun _ _ => ⟨_, he, rfl, fun j hj => ?block, fun a ha => ?otherByte⟩⟩
    case block =>
      have hjp : 16 * j + 16 ≤ padLen s.msgLen.toNat := show 16 * j + 16 ≤ p by omega
      refine (s.bufBytes_writeBuf_block cbufBase (by rwa [s.length_ciphertext])).trans ?_
      rw [s.blockAt_ciphertext hjp, s.blockAt_pad_message hjp]
      rfl
    case otherByte =>
      refine (s.bufByte_writeBuf _ _ a).trans (if_neg ?_)
      rwa [s.length_ciphertext]
  · exact ⟨by simp [hk], fun _ _ => he, fun _ h => by omega⟩
  · exact ⟨fun _ => he, by simp [hk], by simp [hk]⟩

/-- Settles O24: DEC_UNPAD's four cases, the last byte of the plaintext being R553's pad value; where it accepts, it writes the
plaintext without its pad bytes and a terminator, and a byte outside them stands. -/
theorem decUnpadResult : Obligations.DecUnpadResult := by
  intro s c badLen d pv
  have hbad : s.ctLenOk = false ↔ badLen := s.ctLenOk_eq_false_iff
  have hd (hl : s.ctLenOk = true) {n : Nat} (hn : n < c) : s.plaintext.getD n 0 = d n := State.getD_plaintext hl hn
  have hpv (hl : s.ctLenOk = true) : (padValue s.plaintext).toNat = pv := by
    have hc : c ≠ 0 := (s.ctLenOk_iff.1 hl).1
    rw [State.padValue_plaintext hl, hd hl (by omega)]
  have hpad (hl : s.ctLenOk = true) : padAccepted s.plaintext = false ↔ pv = 0 ∨ pv > 16 := by
    rw [padAccepted_eq_false_iff, hpv hl]
  rcases execDecUnpad_cases s with ⟨hk, hl, hp, he⟩ | ⟨hk, hl, hp, he⟩ | ⟨hk, hl, he⟩ | ⟨hk, he⟩
  · have hmsg : (unpad s.plaintext).length = c - pv := by rw [length_unpad, State.length_plaintext hl, hpv hl]
    have hwritten : (unpad s.plaintext ++ [0]).length = c - pv + 1 := by rw [List.length_append, hmsg, List.length_singleton]
    refine ⟨by simp [hk], by simp [← hbad, hl], by simp [← hpad hl, hp],
      fun _ _ _ => ⟨_, he, ?frame, fun n hn => ?message, ?terminator, fun a ha => ?otherByte⟩⟩
    case frame =>
      rw [hmsg]
      rfl
    case message =>
      refine (s.bufByte_writeBuf_inside mbufBase (by omega)).trans ?_
      rw [getD_unpad_append _ _ (by omega), hd hl (by omega)]
    case terminator =>
      refine (s.bufByte_writeBuf_inside mbufBase (by omega)).trans ?_
      rw [← hmsg, getD_unpad_append_length]
    case otherByte =>
      refine (s.bufByte_writeBuf _ _ a).trans (if_neg ?_)
      rw [hwritten, mbufBase]
      omega
  · exact ⟨by simp [hk], by simp [← hbad, hl], fun _ _ _ => he, by simp [← hpad hl, hp]⟩
  · exact ⟨by simp [hk], fun _ _ => he, by simp [← hbad, hl], by simp [← hbad, hl]⟩
  · exact ⟨fun _ => he, by simp [hk], by simp [hk], by simp [hk]⟩

end Sys2Proof
end

section
/-! PROOFS. The framer, the queue and the consumer (45_framer_queue.md): RX_BYTE, TICK, TX_DONE, WORKER_POP and the CHCFG write. -/

namespace Sys2Proof.Machine

/-! ### The saturating increment -/

/-- The ceiling by its number, the form in which R603, R605 and R608 state the counters. -/
theorem satInc_eq (n : BitVec 16) : satInc n = BitVec.ofNat 16 (min (n.toNat + 1) 0xFFFF) := rfl

/-! ### RX_BYTE on its channel (R602, R604, R605) -/

/-- The realignment test is strict (R602). -/
theorem Channel.toNat_rxIndex (thresh : BitVec 16) (c : Channel) :
    (c.rxIndex thresh).toNat = if c.idle.toNat > thresh.toNat then 0 else c.fidx.toNat := by
  rw [Channel.rxIndex]
  exact apply_ite BitVec.toNat _ _ _

section
variable {c : Channel} {thresh : BitVec 16}

/-- A byte that does not complete the frame. -/
theorem Channel.rxByte_of_index_ne (he : c.en = true) (hi : (c.rxIndex thresh).toNat ≠ 15) (depth : Nat) (b : Byte) :
    c.rxByte thresh depth b =
      { c with
        fbuf := c.fbuf.set (c.rxIndex thresh).toNat b, fidx := BitVec.ofNat 5 ((c.rxIndex thresh).toNat + 1), idle := 0 } := by
  rcases Channel.rxByte_cases thresh depth b c with ⟨hd, -⟩ | ⟨-, -, hr⟩ | ⟨-, h15, -⟩
  · cases he.symm.trans hd
  · have hnext : BitVec.ofNat 5 ((c.rxIndex thresh).toNat + 1) = c.rxIndex thresh + 1 := by
      rw [BitVec.ofNat_add, BitVec.ofNat_toNat, BitVec.setWidth_eq]
      rfl
    rw [hr, hnext]
  · exact absurd (congrArg BitVec.toNat h15) hi

/-- The sixteenth byte hands the frame off and starts the next one. -/
theorem Channel.rxByte_of_index_eq (he : c.en = true) (hi : (c.rxIndex thresh).toNat = 15) (depth : Nat) (b : Byte) :
    c.rxByte thresh depth b =
      { ({ c with fbuf := c.fbuf.set 15 b, fidx := 16, idle := 0 } : Channel).handoff depth (c.fbuf.set 15 b) with fidx := 0 } := by
  rcases Channel.rxByte_cases thresh depth b c with ⟨hd, -⟩ | ⟨-, hne, -⟩ | ⟨-, -, hr⟩
  · cases he.symm.trans hd
  · exact absurd (BitVec.eq_of_toNat_eq hi) hne
  · exact hr

/-- The frame is queued where there is room (R604). -/
theorem Channel.rxByte_of_room {depth : Nat} (he : c.en = true) (hi : (c.rxIndex thresh).toNat = 15) (hq : c.q.length < depth)
    (b : Byte) :
    c.rxByte thresh depth b = { c with fbuf := c.fbuf.set 15 b, fidx := 0, idle := 0, q := c.q ++ [c.fbuf.set 15 b] } := by
  rw [Channel.rxByte_of_index_eq he hi, Channel.handoff, if_pos hq]

/-- The frame is dropped and counted where there is none (R605). -/
theorem Channel.rxByte_of_full {depth : Nat} (he : c.en = true) (hi : (c.rxIndex thresh).toNat = 15) (hq : depth ≤ c.q.length)
    (b : Byte) :
    c.rxByte thresh depth b = { c with fbuf := c.fbuf.set 15 b, fidx := 0, idle := 0, qdrop := satInc c.qdrop } := by
  rw [Channel.rxByte_of_index_eq he hi, Channel.handoff, if_neg hq.not_gt, Channel.dropFull]

end

/-! ### TX_DONE and WORKER_POP on their channel (R607, R608) -/

theorem Channel.txDone_of_idle {c : Channel} (h : c.w = .idle) (fail : Bool) : c.txDone fail = c := by
  rcases Channel.txDone_cases fail c with ⟨-, hr⟩ | ⟨⟨_, _, hw⟩, -⟩
  · exact hr
  · cases h.symm.trans hw

theorem Channel.txDone_of_hold {c : Channel} {out : BitVec 4} {data : Block} (h : c.w = .hold out data) (fail : Bool) :
    c.txDone fail = { c with txfail := if fail then satInc c.txfail else c.txfail, w := .idle } := by
  rcases Channel.txDone_cases fail c with ⟨hw, -⟩ | ⟨-, hr⟩
  · cases h.symm.trans hw
  · exact hr

/-- The cipher or the inverse cipher, by ROLE (R607). -/
theorem Role.apply_eq_ite (r : Role) (f : Block) (rks : Schedule) :
    r.apply f rks = if r = .encrypt then cipher f rks else invCipher f rks := by
  cases r with
  | encrypt => rfl
  | decrypt => rfl

theorem Channel.pop_of_enabled {c : Channel} {f : Block} {rest : List Block} (hw : c.w = .idle) (hq : c.q = f :: rest)
    (rks : Schedule) : c.pop true rks = { c with q := rest, w := .hold c.out (c.role.apply f rks) } := by
  rcases Channel.pop_cases true rks c with ⟨hk | hw' | hq', -⟩ | ⟨_, _, -, -, hq', hr⟩
  · cases hk
  · exact absurd hw hw'
  · cases hq.symm.trans hq'
  · cases hq.symm.trans hq'
    exact hr

/-! ### The instructions, on an existing channel and where they change nothing -/

/-- A change that some channels ignore, where the channel it names is one of them or does not exist. -/
theorem State.modifyChan_eq_self_of_ignored {s : State} {ch : Nat} {f : Channel → Channel} {Ignores : Channel → Prop}
    (hf : ∀ c, Ignores c → f c = c) (h : s.numChannels ≤ ch ∨ ∃ c, s.chans[ch]? = some c ∧ Ignores c) :
    s.modifyChan ch f = s := by
  rcases h with habsent | ⟨c, hc, hi⟩
  · exact State.modifyChan_none (List.getElem?_eq_none habsent) f
  · refine State.modifyChan_eq_self fun c' hc' => ?_
    cases hc.symm.trans hc'
    exact hf c hi

section
variable {s : State} {ch : BitVec 4} {c : Channel}

theorem exec_rxByte_of_some (h : s.chans[ch.toNat]? = some c) (b : Byte) :
    exec (.rxByte ch b) s = .next { s with chans := s.chans.set ch.toNat (c.rxByte s.thresh s.queueDepth b) } :=
  congrArg Host.Outcome.next (State.modifyChan_eq_set h _)

theorem exec_txDone_of_some (h : s.chans[ch.toNat]? = some c) (fail : Bool) :
    exec (.txDone ch fail) s = .next { s with chans := s.chans.set ch.toNat (c.txDone fail) } :=
  congrArg Host.Outcome.next (State.modifyChan_eq_set h _)

theorem exec_workerPop_of_some (h : s.chans[ch.toNat]? = some c) :
    exec (.workerPop ch) s = .next { s with chans := s.chans.set ch.toNat (c.pop s.rkv s.rks) } :=
  congrArg Host.Outcome.next (State.modifyChan_eq_set h _)

/-- An answer for an absent channel or an idle consumer changes nothing (R608). -/
theorem exec_txDone_of_ignored (fail : Bool)
    (h : s.numChannels ≤ ch.toNat ∨ ∃ c, s.chans[ch.toNat]? = some c ∧ c.w = .idle) : exec (.txDone ch fail) s = .next s :=
  congrArg Host.Outcome.next (State.modifyChan_eq_self_of_ignored (fun _ hw => Channel.txDone_of_idle hw fail) h)

end

/-! ### The CHCFG write (R601) -/

/-- R201's offset of CHCFG, for the channels the window has room for, whatever the number of channels is. -/
theorem regAt_chCfg {nch ch : Nat} (h16 : ch < 16) (h : ch < nch) : regAt nch (0x100 + 0x10 * ch) = some (.chCfg ch) := by
  have hch : (0x100 + 0x10 * ch - 0x100) / 0x10 = ch := by omega
  have hword : (0x100 + 0x10 * ch) % 0x10 / 4 = 0 := by omega
  rw [regAt, if_pos (by omega), mappedReg, if_neg (by omega), if_pos (by omega), hch, hword, if_pos h, chanReg]

theorem exec_hostWr_chCfg {s : State} {ch : Nat} {c : Channel} (h16 : ch < 16) (h : s.chans[ch]? = some c) (v : Word) :
    exec (.hostWr .word (BitVec.ofNat 10 (0x100 + 0x10 * ch)) v) s =
      .next ({ s with chans := s.chans.set ch (c.writeCfg s.rkv v) }.respond 0) := by
  have hlt : ch < s.numChannels := (List.getElem?_eq_some_iff.1 h).1
  have hreg : s.accessReg .word (BitVec.ofNat 10 (0x100 + 0x10 * ch)) = some (.chCfg ch) := by
    rw [State.accessReg, if_pos rfl, BitVec.toNat_ofNat, Nat.mod_eq_of_lt (by omega), regAt_chCfg h16 hlt]
  rw [exec_hostWr_of_some hreg nofun, State.writeReg, State.modifyChan_eq_set h]

end Sys2Proof.Machine

namespace Sys2Proof
open Sys2Proof.Machine

/-- Settles O32: the stored index is `rxIndex`, and the outcome on an enabled channel is by that index and the
queue's room. -/
theorem rxByteOnChannel : Obligations.RxByteOnChannel := by
  intro s ch b
  refine ⟨fun c hc he => ?_, exec_rxByte_of_ignored b⟩
  simp only [← Channel.toNat_rxIndex, exec_rxByte_of_some hc]
  refine ⟨Block.toList_set _ _ _, fun hne => ?store, fun h15 hq => ?queue, fun h15 hq => ?drop⟩
  case store => rw [Channel.rxByte_of_index_ne he hne]
  case queue => rw [Channel.rxByte_of_room he h15 hq, h15]
  case drop => rw [Channel.rxByte_of_full he h15 hq, h15, satInc_eq]

/-- Settles O34: the two cases of the consumer the answer is for. -/
theorem txDoneAnswers : Obligations.TxDoneAnswers := by
  intro s ch fail
  refine ⟨fun c out data hc hw => ?_, exec_txDone_of_ignored fail⟩
  rw [exec_txDone_of_some hc, Channel.txDone_of_hold hw, satInc_eq]

/-- Settles O36: the pop's guard has no EN in it, and ROLE chooses the cipher. -/
theorem workerPopTakesHead : Obligations.WorkerPopTakesHead := by
  intro s ch c f rest hc hw hq hk
  rw [exec_workerPop_of_some hc, hk, Channel.pop_of_enabled hw hq, Role.apply_eq_ite]

/-- Settles O44: the offset is that of the channel's CHCFG, and the write is `writeCfg` there. -/
theorem chcfgWrite : Obligations.ChcfgWrite := by
  intro s ch c v h16 hc newEn
  rw [exec_hostWr_chCfg h16 hc, Channel.writeCfg, Role.ofBit]
  rfl

/-- Settles O33: TICK is `Channel.tick` on every channel. -/
theorem tickAdvancesIdle : Obligations.TickAdvancesIdle := by
  intro s
  refine ⟨{ s with chans := s.chans.map Channel.tick }, rfl, rfl, fun ch => ?_⟩
  rw [List.getElem?_map]
  rfl

end Sys2Proof
end

section
/-! PROOFS. Encoding and decoding (30_encoding.md): the two round trips, the sample words, and the unmapped
offsets of the window. -/

namespace Sys2Proof
open Sys2Proof.Machine

/-- R304's conditions on the fields leave none of R311's valid words. -/
theorem decodeCmd_of_cmdInvalid {nch : Nat} {w : Word} (h : cmdInvalid nch w = true) : decodeCmd nch w = .badCmd w := by
  have hfields : cmdRes w ≠ 0 ∨ 8 ≤ (cmdOp w).toNat ∨ (cmdOp w ≠ 7 ∧ cmdCh w ≠ 0) ∨ (cmdOp w = 7 ∧ nch ≤ (cmdCh w).toNat) := by
    simpa [cmdInvalid, cmdRes, cmdOp, cmdCh, or_assoc] using h
  simp only [ne_eq, ← BitVec.toNat_inj, toNat_cmdRes, toNat_cmdOp, toNat_cmdCh, BitVec.reduceToNat] at hfields
  rw [decodeCmd_eq_badCmd_iff]
  omega

/-- R308's conditions leave none of R307's words. -/
theorem decodeEv_of_evIgnored {e : BitVec 16} (h : evIgnored e = true) : decodeEv e = .evReserved e := by
  have hfields : (evKind e ≠ 1 ∧ (evKind e ≠ 2 ∨ evCh e ≠ 0 ∨ evData e ≠ 0)) ∧
      (evKind e ≠ 3 ∨ (evData e).extractLsb' 1 7 ≠ 0) := by
    simpa [evIgnored, evKind, evCh, evData, or_assoc] using h
  obtain ⟨⟨hrx, htick⟩, htx⟩ := hfields
  rw [decodeEv, if_neg hrx, if_neg (by tauto), if_neg (by tauto)]

/-- Settles O1: the decoder finds the fields the encoder put into a word, and an ill-formed word by R304's and R308's conditions. -/
theorem instructionRoundTrip : Obligations.InstructionRoundTrip := by
  intro nch i hwf
  cases i with
  | nop | keyExpand | encBlk | decBlk | padEnc | decUnpad | reinit =>
    rw [encode, decodeStimulus_hostWrite_cmd]
    simp [decodeCmd, Command.toInstr]
  | clrCnt ch =>
    have hch : ch.toNat < nch := of_decide_eq_true hwf
    rw [encode, decodeStimulus_hostWrite_cmd]
    simp [decodeCmd, Command.toInstr, hch]
  | badCmd w => rw [encode, decodeStimulus_hostWrite_cmd, decodeCmd_of_cmdInvalid hwf, Command.toInstr]
  | rxByte ch b => simp [encode, decodeStimulus, decodeEv]
  | tick => simp [encode, decodeStimulus, decodeEv]
  | txDone ch fail => cases fail <;> simp [encode, decodeStimulus, decodeEv]
  | evReserved e => exact decodeEv_of_evIgnored hwf
  | hostWr size off v =>
    have hcmd : ¬(size = .word ∧ off = 0) := by
      rintro ⟨rfl, rfl⟩
      cases hwf
    rw [encode, decodeStimulus, if_neg hcmd]
  | workerPop ch | hostRd size off | reset => rfl

/-- The encoder writes the fields the decoder read back into the command word. -/
theorem encode_decodeCmd (nch : Nat) (w : Word) : encode (decodeCmd nch w).toInstr = .hostWrite .word 0 w := by
  rcases decodeCmd_cases nch w with ⟨hres, hch, hop⟩ | ⟨hres, hop, -, hd⟩ | hd
  · have hw := cmdWord_fields hres
    rw [hch] at hw
    rcases hop with ⟨hop, hd⟩ | ⟨hop, hd⟩ | ⟨hop, hd⟩ | ⟨hop, hd⟩ | ⟨hop, hd⟩ | ⟨hop, hd⟩ | ⟨hop, hd⟩
    all_goals
      rw [hd, ← hw, hop]
      rfl
  · have hw := cmdWord_fields hres
    rw [hop] at hw
    rw [hd, Command.toInstr, encode, hw]
  · rw [hd, Command.toInstr, encode]

/-- The encoder writes the fields the decoder read back into the event word. -/
theorem encode_decodeEv (e : BitVec 16) : encode (decodeEv e) = .event e := by
  have he := evWord_fields e
  rcases decodeEv_cases e with ⟨hk, hd⟩ | ⟨hk, hc, hz, hd⟩ | ⟨hk, hr, hd⟩ | ⟨-, hd⟩
  · rw [hd, encode, ← hk, he]
  · rw [hk, hc, hz] at he
    rw [hd, encode, he]
  · rw [hd, encode, txData_fields _ hr, ← hk, he]
  · rw [hd, encode]

/-- Settles O2: a word is its fields, and every other stimulus is carried whole. -/
theorem stimulusRoundTrip : Obligations.StimulusRoundTrip := by
  intro nch x
  cases x with
  | hostWrite size off v =>
    by_cases hcmd : size = .word ∧ off = 0
    · obtain ⟨rfl, rfl⟩ := hcmd
      rw [decodeStimulus_hostWrite_cmd, encode_decodeCmd]
    · rw [decodeStimulus, if_neg hcmd, encode]
  | event e => exact encode_decodeEv e
  | hostRead size off | consumer ch | resetInput => rfl

/-- Settles O6. -/
theorem writtenOutWordsDecode : Obligations.WrittenOutWordsDecode := by
  unfold Obligations.WrittenOutWordsDecode
  decide

/-- Settles O7: the map leaves out the ranges R201 names, for every number of channels. -/
theorem unmappedOffsets : Obligations.UnmappedOffsets := fun _ _ _ hn => regAt_eq_none_iff hn

end Sys2Proof
end

section
/-! PROOFS. What an instruction can do, said once over all of them: the next states of a command, and of any other instruction. The
frames and the invariant are read off from it. -/

namespace Sys2Proof.Machine

/-- The instruction executes the command: it is the command itself, or the write of CMD that carries it (R300, R400). -/
def Executes (s : State) (i : Instr) (c : Command) : Prop :=
  i = c.toInstr ∨ ∃ v, i = .hostWr .word 0 v ∧ decodeCmd s.numChannels v = c

/-- The next states of a command: a result code alone, or what the command that succeeds writes beside it (R402, R403). -/
inductive CommandResult (s : State) : Command → State → Prop
  | errOnly (c : Command) (e : Err) : CommandResult s c (s.finish e)
  | clrCnt (ch : BitVec 4) : CommandResult s (.clrCnt ch) ((s.modifyChan ch.toNat Channel.clearCounters).finish .ok)
  | keyExpand :
    CommandResult s .keyExpand ({ s with keyLatched := s.key, rks := keyExpansion s.key, rkv := true }.finish .ok)
  | reinit : CommandResult s .reinit ({ s with rks := keyExpansion s.keyLatched }.finish .ok)
  | encBlk : CommandResult s .encBlk ({ s with dout := cipher s.din s.rks }.finish .ok)
  | decBlk : CommandResult s .decBlk ({ s with dout := invCipher s.din s.rks }.finish .ok)
  | padEnc (hl : s.msgLen.toNat ≤ 127) :
    CommandResult s .padEnc ({ s.writeBuf cbufBase (mapBlocks (fun b => cipher b s.rks) (pad s.message)) with
      ctLen := BitVec.ofNat 8 (padLen s.msgLen.toNat) }.finish .ok)
  | decUnpad (hl : (unpad s.plaintext).length ≤ 127) :
    CommandResult s .decUnpad ({ s.writeBuf mbufBase (unpad s.plaintext ++ [0]) with
      msgLen := BitVec.ofNat 8 (unpad s.plaintext).length }.finish .ok)

theorem runCommand_result {c : Command} {s t : State} (h : runCommand c s = .next t) : CommandResult s c t := by
  cases c with
  | nop =>
    cases h
    exact .errOnly _ _
  | badCmd w =>
    cases h
    exact .errOnly _ _
  | clrCnt ch =>
    rcases execClrCnt_cases ch s with ⟨-, he⟩ | ⟨-, he⟩ <;> cases he.symm.trans h
    · exact .clrCnt ch
    · exact .errOnly _ _
  | keyExpand =>
    rcases execKeyExpand_cases s with ⟨-, he⟩ | ⟨-, he⟩ <;> cases he.symm.trans h
    · exact .keyExpand
    · exact .errOnly _ _
  | reinit =>
    rcases execReinit_cases s with ⟨-, he⟩ | ⟨-, he⟩ <;> cases he.symm.trans h
    · exact .reinit
    · exact .errOnly _ _
  | encBlk =>
    rcases execEncBlk_cases s with ⟨-, he⟩ | ⟨-, he⟩ <;> cases he.symm.trans h
    · exact .encBlk
    · exact .errOnly _ _
  | decBlk =>
    rcases execDecBlk_cases s with ⟨-, he⟩ | ⟨-, he⟩ <;> cases he.symm.trans h
    · exact .decBlk
    · exact .errOnly _ _
  | padEnc =>
    rcases execPadEnc_cases s with ⟨-, hl, he⟩ | ⟨-, -, he⟩ | ⟨-, he⟩ <;> cases he.symm.trans h
    · exact .padEnc hl
    · exact .errOnly _ _
    · exact .errOnly _ _
  | decUnpad =>
    rcases execDecUnpad_cases s with ⟨-, hl, hp, he⟩ | ⟨-, -, -, he⟩ | ⟨-, -, he⟩ | ⟨-, he⟩ <;> cases he.symm.trans h
    · exact .decUnpad (State.length_unpadded hl hp)
    · exact .errOnly _ _
    · exact .errOnly _ _
    · exact .errOnly _ _

/-- The next states of an instruction: a command's, a change of the channels, an answered access, a register write, or reset. -/
inductive Effect (s : State) : Instr → State → Prop
  | command {i : Instr} {c : Command} {t : State} (hi : Executes s i c) (ht : CommandResult s c t) : Effect s i t
  | rxByte (ch : BitVec 4) (b : Byte) :
    Effect s (.rxByte ch b) (s.modifyChan ch.toNat (Channel.rxByte s.thresh s.queueDepth b))
  | tick : Effect s .tick { s with chans := s.chans.map Channel.tick }
  | txDone (ch : BitVec 4) (fail : Bool) : Effect s (.txDone ch fail) (s.modifyChan ch.toNat (Channel.txDone fail))
  | evReserved (e : BitVec 16) : Effect s (.evReserved e) s
  | workerPop (ch : BitVec 4) : Effect s (.workerPop ch) (s.modifyChan ch.toNat (Channel.pop s.rkv s.rks))
  | hostWr (off : BitVec 10) (v : Word) (r : Reg) (hr : regAt s.numChannels off.toNat = some r) :
    Effect s (.hostWr .word off v) ((s.writeReg v r).respond 0)
  | hostWrError (size : AccessSize) (off : BitVec 10) (v : Word) : Effect s (.hostWr size off v) s.busError
  | hostRd (size : AccessSize) (off : BitVec 10) (resp : Option BusResp) :
    Effect s (.hostRd size off) { s with resp := resp }
  | reset : Effect s .reset (State.resetWith s.numChannels s.queueDepth (s.resets + 1) s.clock s.pending)

theorem effect_of_runCommand {c : Command} {s t : State} (h : runCommand c s = .next t) : Effect s c.toInstr t :=
  .command (.inl rfl) (runCommand_result h)

theorem exec_effect {i : Instr} {s t : State} (h : exec i s = .next t) : Effect s i t := by
  cases i with
  | nop => exact effect_of_runCommand (c := .nop) h
  | keyExpand => exact effect_of_runCommand (c := .keyExpand) h
  | encBlk => exact effect_of_runCommand (c := .encBlk) h
  | decBlk => exact effect_of_runCommand (c := .decBlk) h
  | padEnc => exact effect_of_runCommand (c := .padEnc) h
  | decUnpad => exact effect_of_runCommand (c := .decUnpad) h
  | reinit => exact effect_of_runCommand (c := .reinit) h
  | clrCnt ch => exact effect_of_runCommand (c := .clrCnt ch) h
  | badCmd w => exact effect_of_runCommand (c := .badCmd w) h
  | rxByte ch b =>
    cases h
    exact .rxByte ch b
  | tick =>
    cases h
    exact .tick
  | txDone ch fail =>
    cases h
    exact .txDone ch fail
  | evReserved e =>
    cases h
    exact .evReserved e
  | workerPop ch =>
    cases h
    exact .workerPop ch
  | hostWr size off v =>
    rcases execHostWr_cases size off v s with ⟨-, he⟩ | ⟨rfl, rfl, -, he⟩ | ⟨r, -, hr, he⟩
    · cases he.symm.trans h
      exact .hostWrError size off v
    · exact .command (.inr ⟨v, rfl, rfl⟩) (runCommand_result (he.symm.trans h))
    · obtain ⟨rfl, hreg⟩ := State.accessReg_some hr
      cases he.symm.trans h
      exact .hostWr off v r hreg
  | hostRd size off =>
    rcases execHostRd_cases size off s with ⟨-, he⟩ | ⟨r, -, he⟩
    · cases he.symm.trans h
      exact .hostRd size off _
    · cases he.symm.trans h
      exact .hostRd size off _
  | reset =>
    cases h
    exact .reset

end Sys2Proof.Machine
end

section
/-! PROOFS. Reset, steps and the invariants (10_state.md section 4, 70_reset_and_hazards.md section 1, 20_memory.md R220). -/

namespace Sys2Proof.Machine

/-! ### What each change of a channel keeps (R128 items 2 to 5) -/

section
variable {depth : Nat} {rkv : Bool} {c : Channel}

/-- A valid schedule keeps a channel's invariant, whatever RKV was. -/
theorem Channel.Inv.of_keyed (h : c.Inv depth rkv) : c.Inv depth true :=
  ⟨h.fidx_lt, h.queue_le, fun _ => rfl, fun _ => rfl, fun _ => rfl⟩

theorem Channel.Inv.clearCounters (h : c.Inv depth rkv) : c.clearCounters.Inv depth rkv :=
  ⟨h.fidx_lt, h.queue_le, h.enabled_keyed, h.queued_keyed, h.held_keyed⟩

theorem Channel.Inv.tick (h : c.Inv depth rkv) : c.tick.Inv depth rkv :=
  ⟨h.fidx_lt, h.queue_le, h.enabled_keyed, h.queued_keyed, h.held_keyed⟩

/-- A byte is stored at an index below 16 (R602). -/
theorem Channel.Inv.rxIndex_lt (h : c.Inv depth rkv) (thresh : BitVec 16) : (c.rxIndex thresh).toNat < 16 := by
  have := h.fidx_lt
  rw [Channel.toNat_rxIndex]
  split <;> omega

/-- An enabled channel is keyed, so its frame may be queued; the queue takes it only below its depth. -/
theorem Channel.Inv.rxByte (h : c.Inv depth rkv) (thresh : BitVec 16) (b : Byte) : (c.rxByte thresh depth b).Inv depth rkv := by
  rcases c.rxByte_cases thresh depth b with ⟨-, hr⟩ | ⟨-, hi, hr⟩ | ⟨he, -, hr⟩
  · rwa [hr]
  · have hlt := h.rxIndex_lt thresh
    rw [hr]
    refine ⟨show (c.rxIndex thresh + 1).toNat < 16 from ?_, h.queue_le, h.enabled_keyed, h.queued_keyed, h.held_keyed⟩
    bv_omega
  · rw [hr]
    rcases Channel.handoff_cases depth (c.fbuf.set 15 b) { c with fbuf := c.fbuf.set 15 b, fidx := 16, idle := 0 } with
      ⟨hq, hh⟩ | ⟨-, hh⟩
    · rw [hh]
      exact ⟨(by decide : (0 : BitVec 5).toNat < 16), by simpa using hq, h.enabled_keyed, fun _ => h.enabled_keyed he,
        h.held_keyed⟩
    · rw [hh]
      exact ⟨(by decide : (0 : BitVec 5).toNat < 16), h.queue_le, h.enabled_keyed, h.queued_keyed, h.held_keyed⟩

theorem Channel.Inv.txDone (h : c.Inv depth rkv) (fail : Bool) : (c.txDone fail).Inv depth rkv := by
  rcases c.txDone_cases fail with ⟨-, hr⟩ | ⟨-, hr⟩
  · rwa [hr]
  · rw [hr]
    exact ⟨h.fidx_lt, h.queue_le, h.enabled_keyed, h.queued_keyed, fun hw => absurd rfl hw⟩

theorem Channel.Inv.pop (h : c.Inv depth rkv) (rks : Schedule) : (c.pop rkv rks).Inv depth rkv := by
  rcases c.pop_cases rkv rks with ⟨-, hr⟩ | ⟨f, rest, hk, -, hq, hr⟩
  · rwa [hr]
  · have hle := h.queue_le
    rw [hq, List.length_cons] at hle
    rw [hr]
    exact ⟨h.fidx_lt, show rest.length ≤ depth by omega, h.enabled_keyed, fun _ => hk, fun _ => hk⟩

/-- EN is only set with a schedule (R601). -/
theorem Channel.Inv.writeCfg (h : c.Inv depth rkv) (v : Word) : (c.writeCfg rkv v).Inv depth rkv := by
  refine ⟨?_, h.queue_le, fun he => (Bool.and_eq_true_iff.1 he).2, h.queued_keyed, h.held_keyed⟩
  simp only [Channel.writeCfg]
  split
  · decide
  · exact h.fidx_lt

end

/-! ### What each change of the state keeps -/

section
variable {s : State}

/-- Every change of one channel that keeps the channel's invariant keeps the state's. -/
theorem State.Inv.modifyChan (h : s.Inv) (ch : Nat) {f : Channel → Channel}
    (hf : ∀ c, c.Inv s.queueDepth s.rkv → (f c).Inv s.queueDepth s.rkv) : (s.modifyChan ch f).Inv := by
  refine ⟨h.keyed, fun c hc => ?_, h.mem_wf, h.mem_buffers⟩
  obtain ⟨c₀, hmem, rfl | rfl⟩ := State.mem_modifyChan hc
  · exact h.chans _ hmem
  · exact hf _ (h.chans _ hmem)

/-- MBUF and CBUF by their offsets (R201). -/
theorem isBuffer_iff (a : Nat) : isBuffer a = true ↔ (0x200 ≤ a ∧ a < 0x280) ∨ (0x300 ≤ a ∧ a < 0x380) := by
  rw [isBuffer, Bool.or_eq_true, decide_eq_true_iff, decide_eq_true_iff]
  rfl

/-- A write of bytes that lie in MBUF or in CBUF keeps the memory canonical. -/
theorem State.Inv.writeBuf (h : s.Inv) {a : Nat} {bs : List Byte} (ha : a = mbufBase ∨ a = cbufBase)
    {k : Nat} (hk : k + bs.length ≤ Config.maxMsg) : (s.writeBuf (a + k) bs).Inv := by
  refine ⟨h.keyed, h.chans, Memory.writeList_wf h.mem_wf _ _, Memory.writeList_inBuffers h.mem_buffers _ _ fun i hi => ?_⟩
  rw [isBuffer_iff]
  rw [mbufBase, cbufBase] at ha
  rw [Config.maxMsg] at hk
  omega

theorem State.Inv.writeReg (h : s.Inv) (v : Word) (r : Reg) : (s.writeReg v r).Inv := by
  cases r with
  | chCfg ch => exact h.modifyChan ch fun _ hc => hc.writeCfg v
  | mbuf i => exact h.writeBuf (.inl rfl) (by simp only [Col.length_toList, Config.maxMsg]; omega)
  | cbuf i => exact h.writeBuf (.inr rfl) (by simp only [Col.length_toList, Config.maxMsg]; omega)
  | cmd | status | param | dout _ | chStat _ | qdrop _ | txfail _ => exact h
  | resync | msgLen | ctLen | key _ | din _ => exact ⟨h.keyed, h.chans, h.mem_wf, h.mem_buffers⟩

/-- The invariant reads neither ERR nor the bus response. -/
theorem State.Inv.finish (h : s.Inv) (e : Err) : (s.finish e).Inv := ⟨h.keyed, h.chans, h.mem_wf, h.mem_buffers⟩

theorem State.Inv.respond (h : s.Inv) (d : Word) : (s.respond d).Inv := ⟨h.keyed, h.chans, h.mem_wf, h.mem_buffers⟩

theorem State.Inv.commandResult {c : Command} {t : State} (h : s.Inv) (ht : CommandResult s c t) : t.Inv := by
  cases ht with
  | errOnly c e => exact h.finish e
  | clrCnt ch => exact (h.modifyChan ch.toNat fun _ hc => hc.clearCounters).finish .ok
  | keyExpand => exact ⟨fun _ => rfl, fun c hc => (h.chans c hc).of_keyed, h.mem_wf, h.mem_buffers⟩
  | reinit => exact ⟨fun _ => rfl, h.chans, h.mem_wf, h.mem_buffers⟩
  | encBlk | decBlk => exact ⟨h.keyed, h.chans, h.mem_wf, h.mem_buffers⟩
  | padEnc hl =>
    have hfits := (padLen_le_maxMsg s.msgLen.toNat).2 hl
    have hw := h.writeBuf (k := 0) (bs := mapBlocks (fun b => cipher b s.rks) (pad s.message)) (.inr rfl)
      (by rw [s.length_ciphertext]; omega)
    exact ⟨hw.keyed, hw.chans, hw.mem_wf, hw.mem_buffers⟩
  | decUnpad hl =>
    have hw := h.writeBuf (k := 0) (bs := unpad s.plaintext ++ [0]) (.inl rfl) (by simp [Config.maxMsg]; omega)
    exact ⟨hw.keyed, hw.chans, hw.mem_wf, hw.mem_buffers⟩

end

/-- A reset channel is idle, empty and disabled (R801). -/
theorem Channel.reset_inv (ch depth : Nat) : (Channel.reset ch).Inv depth false :=
  ⟨(by decide : (0 : BitVec 5).toNat < 16), Nat.zero_le depth, nofun, fun h => absurd rfl h, fun h => absurd rfl h⟩

/-- The reset values meet the invariants, for every configuration (R801). -/
theorem State.resetWith_inv (nch depth n clock : Nat) (pending : List Stimulus) :
    (State.resetWith nch depth n clock pending).Inv := by
  refine ⟨nofun, fun c hc => ?_, List.Pairwise.nil, by simp [State.resetWith]⟩
  obtain ⟨ch, -, rfl⟩ := List.mem_map.1 hc
  exact Channel.reset_inv ch depth

theorem State.Inv.effect {i : Instr} {s t : State} (h : s.Inv) (ht : Effect s i t) : t.Inv := by
  cases ht with
  | command hi ht => exact h.commandResult ht
  | rxByte ch b => exact h.modifyChan ch.toNat fun _ hc => hc.rxByte s.thresh b
  | tick =>
    refine ⟨h.keyed, fun c hc => ?_, h.mem_wf, h.mem_buffers⟩
    obtain ⟨c₀, hmem, rfl⟩ := List.mem_map.1 hc
    exact (h.chans c₀ hmem).tick
  | txDone ch fail => exact h.modifyChan ch.toNat fun _ hc => hc.txDone fail
  | evReserved e => exact h
  | workerPop ch => exact h.modifyChan ch.toNat fun _ hc => hc.pop s.rks
  | hostWr off v r hr => exact (h.writeReg v r).respond 0
  | hostWrError | hostRd => exact ⟨h.keyed, h.chans, h.mem_wf, h.mem_buffers⟩
  | reset => exact State.resetWith_inv _ _ _ _ _

/-- The values of R801's table, for every configuration. -/
theorem State.resetWith_atReset (nch depth n clock : Nat) (pending : List Stimulus) :
    (State.resetWith nch depth n clock pending).AtReset where
  rkv := rfl
  err := rfl
  thresh := rfl
  msgLen := rfl
  ctLen := rfl
  key := rfl
  din := rfl
  dout := rfl
  rks r := Vector.getElem_replicate r.isLt
  keyLatched := rfl
  buffers _ := rfl
  chans ch c hc := by
    obtain ⟨k, hk, rfl⟩ := Option.map_eq_some_iff.1 (List.getElem?_map.symm.trans hc)
    obtain ⟨-, rfl⟩ := List.getElem?_eq_some_iff.1 hk
    rw [List.getElem_range]
    exact ⟨rfl, rfl, rfl, rfl, rfl, rfl, rfl, rfl, rfl⟩

/-- Taking a stimulus leaves what the invariant reads. -/
theorem State.Inv.taken {s : State} (h : s.Inv) : s.taken.Inv := by
  rw [State.taken_eq]
  exact ⟨h.keyed, h.chans, h.mem_wf, h.mem_buffers⟩

end Sys2Proof.Machine

namespace Sys2Proof
open Sys2Proof.Machine

/-- Settles O14: taking the stimulus and every effect of an instruction keep the invariant. -/
theorem stepKeepsInvariant : Obligations.StepKeepsInvariant :=
  fun _ _ hinv h => hinv.taken.effect (exec_effect (step_next h).2)

/-- Settles O13: the reset values meet the invariant in every block, so in `State.reset`'s. -/
theorem resetMeetsInvariant : Obligations.ResetMeetsInvariant := State.resetWith_inv _ _ _ _ _

/-- Settles O8: R801's values hold in every block, and two channels of depth two are in R9's range. -/
theorem resetStateValues : Obligations.ResetStateValues :=
  ⟨State.resetWith_atReset _ _ _ _ _, by decide, rfl⟩

/-- Settles O9: the next state is `resetWith` at the block's own parameters, whatever the state was. -/
theorem resetReplacesState : Obligations.ResetReplacesState := fun s =>
  ⟨_, rfl, State.resetWith_atReset _ _ _ _ _, (s.sameParams_resetWith _ _ _).1, rfl, rfl, rfl, rfl, rfl⟩

/-- Settles O10: the two cases of the pending list, and the decoder's own cases. -/
theorem stepRunsDecoded : Obligations.StepRunsDecoded := by
  refine ⟨fun s hs => ⟨fun x rest hp => ?pending, fun hp => ?free⟩, fun nch =>
    ⟨fun _ => rfl, fun _ _ => rfl, fun size off v h => ?hostWr, fun _ => rfl, rfl⟩⟩
  case pending => rw [step, if_pos hs, State.fetch, State.nextStimulus, State.taken, hp]
  case free => rw [step, if_pos hs, State.fetch, State.nextStimulus, State.taken, hp]
  case hostWr => rw [decodeStimulus, if_neg (not_and_or.2 h)]

/-- Settles O11: `step`'s guard is R9's range. -/
theorem illegalParametersRefused : Obligations.IllegalParametersRefused := by
  refine ⟨fun s hs => if_neg fun hok => hs ?_, rfl, rfl⟩
  obtain ⟨⟨hn1, hn16⟩, hq1, hq255⟩ := s.paramsOk_iff.1 hok
  exact ⟨hn1, hn16, hq1, hq255⟩

/-- Settles O12: every instruction completes, as `exec_sameParams` says on its way. -/
theorem everyInstructionSteps : Obligations.EveryInstructionSteps := by
  intro i s
  obtain ⟨t, ht, -⟩ := exec_sameParams i s
  exact ⟨t, ht⟩

/-- Settles O21: REINIT derives the schedule that the invariant says is there. -/
theorem reinitIsNopThatReportsOk : Obligations.ReinitIsNopThatReportsOk := by
  intro s hinv hk
  rw [(reinitRederivesSchedule s).1 hk, ← hinv.keyed hk]

end Sys2Proof
end

section
/-! PROOFS. Frames over every instruction: who writes the channels, ERR, the schedule, the buffers and the registers. -/

namespace Sys2Proof.Machine

/-! ### Which instructions are commands -/

theorem isCommand_toInstr (c : Command) : isCommand c.toInstr = true := by
  cases c <;> rfl

section
variable {s t : State} {i : Instr} {c : Command}

theorem Executes.toInstr (hi : Executes s i c) (h : isCommand i = true) : i = c.toInstr := by
  rcases hi with rfl | ⟨v, rfl, -⟩
  · rfl
  · cases h

theorem Executes.hostWr (hi : Executes s i c) (h : isCommand i = false) :
    ∃ v, i = .hostWr .word 0 v ∧ decodeCmd s.numChannels v = c := by
  rcases hi with rfl | hw
  · cases h.symm.trans (isCommand_toInstr c)
  · exact hw

/-- Only commands have a command's effect. -/
theorem Effect.of_isCommand (h : Effect s i t) (hi : isCommand i = true) : ∃ c, i = c.toInstr ∧ CommandResult s c t := by
  cases h with
  | command he ht => exact ⟨_, he.toInstr hi, ht⟩
  | rxByte | tick | txDone | evReserved | workerPop | hostWr | hostWrError | hostRd | reset => cases hi

end

/-! ### The channels -/

/-- A changed channel is the one named. -/
theorem State.eq_of_modifyChan_ne {s : State} {ch k : Nat} {f : Channel → Channel}
    (h : (s.modifyChan ch f).chans[k]? ≠ s.chans[k]?) : ch = k := by
  by_contra hne
  exact h (s.chan_modifyChan_other f (Ne.symm hne))

/-- A command changes no channel but the one CLR_CNT names (R405). -/
theorem CommandResult.chan {s t : State} {c : Command} (h : CommandResult s c t) (k : Nat) :
    t.chans[k]? = s.chans[k]? ∨ (c = .clrCnt (BitVec.ofNat 4 k) ∧ t.chans[k]? = s.chans[k]?.map Channel.clearCounters) := by
  cases h with
  | clrCnt ch =>
    by_cases hk : k = ch.toNat
    · subst hk
      exact .inr ⟨by rw [BitVec.ofNat_toNat, BitVec.setWidth_eq], s.chan_modifyChan_same _ _⟩
    · exact .inl (s.chan_modifyChan_other _ hk)
  | errOnly | keyExpand | reinit | encBlk | decBlk | padEnc | decUnpad => exact .inl rfl

/-- A register write changes a channel only at the offset of its CHCFG (R601). -/
theorem State.writeReg_chan {s : State} {v : Word} {r : Reg} {k : Nat} (h : (s.writeReg v r).chans[k]? ≠ s.chans[k]?) :
    r = .chCfg k := by
  cases r with
  | chCfg ch => rw [State.eq_of_modifyChan_ne h]
  | cmd | status | resync | msgLen | ctLen | param | key _ | din _ | dout _ | chStat _ | qdrop _ | txfail _ | mbuf _ | cbuf _ =>
    exact absurd rfl h

/-! ### RKV, the schedule and the latched key -/

/-- The keys after an instruction: untouched, a new key's, re-derived, or reset. -/
theorem Effect.keys_cases {s t : State} {i : Instr} (h : Effect s i t) :
    (t.rkv = s.rkv ∧ t.rks = s.rks ∧ t.keyLatched = s.keyLatched) ∨ (Executes s i .keyExpand ∧ t.rkv = true) ∨
      (Executes s i .reinit ∧ t.rkv = s.rkv ∧ t.keyLatched = s.keyLatched) ∨ (i = .reset ∧ t.rkv = false) := by
  cases h with
  | command hi ht =>
    cases ht with
    | keyExpand => exact .inr (.inl ⟨hi, rfl⟩)
    | reinit => exact .inr (.inr (.inl ⟨hi, rfl, rfl⟩))
    | errOnly | clrCnt | encBlk | decBlk | padEnc | decUnpad => exact .inl ⟨rfl, rfl, rfl⟩
  | hostWr off v r => cases r <;> exact .inl ⟨rfl, rfl, rfl⟩
  | reset => exact .inr (.inr (.inr ⟨rfl, rfl⟩))
  | rxByte | tick | txDone | evReserved | workerPop | hostWrError | hostRd => exact .inl ⟨rfl, rfl, rfl⟩

/-! ### The buffers -/

/-- A changed byte is one of those written. -/
theorem State.mem_range_of_writeBuf_ne {s : State} {a : Nat} {bs : List Byte} {k : Nat}
    (h : (s.writeBuf a bs).bufByte k ≠ s.bufByte k) : a ≤ k ∧ k < a + bs.length := by
  by_contra hne
  exact h ((s.bufByte_writeBuf a bs k).trans (if_neg hne))

/-- A register write changes buffer bytes only at the offset of an MBUF or CBUF word (R206). -/
theorem State.writeReg_bufByte {s : State} {v : Word} {r : Reg} {a : Nat} (h : (s.writeReg v r).bufByte a ≠ s.bufByte a) :
    isBuffer r.offset = true ∧ r.offset ≤ a ∧ a < r.offset + 4 := by
  cases r with
  | mbuf i | cbuf i =>
    refine ⟨?_, State.mem_range_of_writeBuf_ne h⟩
    rw [isBuffer_iff, Reg.offset]
    omega
  | cmd | status | resync | msgLen | ctLen | param | key _ | din _ | dout _ | chCfg _ | chStat _ | qdrop _ | txfail _ =>
    exact absurd rfl h

/-! ### The data and control registers -/

/-- The registers a command leaves alone, and the three that one or two commands write. -/
theorem CommandResult.dataRegisters {s t : State} {c : Command} (h : CommandResult s c t) :
    (t.thresh = s.thresh ∧ t.key = s.key ∧ t.din = s.din) ∧ (t.msgLen = s.msgLen ∨ c = .decUnpad) ∧
      (t.ctLen = s.ctLen ∨ c = .padEnc) ∧ (t.dout = s.dout ∨ c = .encBlk ∨ c = .decBlk) := by
  cases h <;> simp

/-- A register write leaves every register alone but the one it names. -/
theorem State.writeReg_dataRegisters (s : State) (v : Word) (r : Reg) :
    ((s.writeReg v r).thresh = s.thresh ∨ r = .resync) ∧ ((s.writeReg v r).msgLen = s.msgLen ∨ r = .msgLen) ∧
      ((s.writeReg v r).ctLen = s.ctLen ∨ r = .ctLen) ∧ ((s.writeReg v r).key = s.key ∨ ∃ k, r = .key k) ∧
      ((s.writeReg v r).din = s.din ∨ ∃ k, r = .din k) ∧ (s.writeReg v r).dout = s.dout := by
  cases r <;> simp [State.writeReg]

/-- The model's own fields that only reset writes (log entries 3 and 4). -/
theorem Effect.ownFields {s t : State} {i : Instr} (h : Effect s i t) (hi : i ≠ .reset) :
    t.resets = s.resets ∧ t.pending = s.pending ∧ t.clock = s.clock := by
  cases h with
  | command _ ht => cases ht <;> exact ⟨rfl, rfl, rfl⟩
  | hostWr off v r => cases r <;> exact ⟨rfl, rfl, rfl⟩
  | reset => exact absurd rfl hi
  | rxByte | tick | txDone | evReserved | workerPop | hostWrError | hostRd => exact ⟨rfl, rfl, rfl⟩

/-- Where the instruction is a host write between two offsets. -/
def WritesBetween (i : Instr) (lo hi : Nat) : Prop := ∃ off v, i = .hostWr .word off v ∧ lo ≤ off.toNat ∧ off.toNat < hi

/-- Each register after an instruction that is not RESET: as it was, or written at its own offsets, or by its commands. -/
theorem Effect.dataRegisters {s t : State} {i : Instr} (h : Effect s i t) (hi : i ≠ .reset) :
    (t.thresh = s.thresh ∨ WritesBetween i 0x008 0x00C) ∧
      (t.msgLen = s.msgLen ∨ WritesBetween i 0x00C 0x010 ∨ Executes s i .decUnpad) ∧
      (t.ctLen = s.ctLen ∨ WritesBetween i 0x010 0x014 ∨ Executes s i .padEnc) ∧
      (t.key = s.key ∨ WritesBetween i 0x020 0x030) ∧ (t.din = s.din ∨ WritesBetween i 0x030 0x040) ∧
      (t.dout = s.dout ∨ Executes s i .encBlk ∨ Executes s i .decBlk) := by
  cases h with
  | command he ht =>
    obtain ⟨⟨hthresh, hkey, hdin⟩, hmsg, hct, hdout⟩ := ht.dataRegisters
    refine ⟨.inl hthresh, hmsg.imp_right ?_, hct.imp_right ?_, .inl hkey, .inl hdin, hdout.imp_right ?_⟩
    · rintro rfl
      exact .inr he
    · rintro rfl
      exact .inr he
    · rintro (rfl | rfl)
      · exact .inl he
      · exact .inr he
  | hostWr off v r hr =>
    have hwrite {lo hi : Nat} (hlo : lo ≤ r.offset) (hhi : r.offset < hi) : WritesBetween (.hostWr .word off v) lo hi :=
      ⟨off, v, rfl, (regAt_some hr).1 ▸ hlo, (regAt_some hr).1 ▸ hhi⟩
    obtain ⟨hthresh, hmsg, hct, hkey, hdin, hdout⟩ := s.writeReg_dataRegisters v r
    refine ⟨hthresh.imp_right ?_, hmsg.imp_right ?_, hct.imp_right ?_, hkey.imp_right ?_, hdin.imp_right ?_, .inl hdout⟩
    · rintro rfl
      exact hwrite le_rfl (by decide)
    · rintro rfl
      exact .inl (hwrite le_rfl (by decide))
    · rintro rfl
      exact .inl (hwrite le_rfl (by decide))
    · rintro ⟨k, rfl⟩
      exact hwrite (by simp only [Reg.offset]; omega) (by simp only [Reg.offset]; omega)
    · rintro ⟨k, rfl⟩
      exact hwrite (by simp only [Reg.offset]; omega) (by simp only [Reg.offset]; omega)
  | reset => exact absurd rfl hi
  | rxByte | tick | txDone | evReserved | workerPop | hostWrError | hostRd =>
    exact ⟨.inl rfl, .inl rfl, .inl rfl, .inl rfl, .inl rfl, .inl rfl⟩

/-! ### Events and consumer steps -/

/-- CHCFG's three fields. -/
def Channel.config (c : Channel) : Bool × Role × BitVec 4 := (c.en, c.role, c.out)

theorem Channel.config_rxByte (thresh : BitVec 16) (depth : Nat) (b : Byte) (c : Channel) :
    (c.rxByte thresh depth b).config = c.config := by
  rcases c.rxByte_cases thresh depth b with ⟨-, hr⟩ | ⟨-, -, hr⟩ | ⟨-, -, hr⟩
  · rw [hr]
  · rw [hr, Channel.config, Channel.config]
  · rw [hr]
    rcases Channel.handoff_cases depth (c.fbuf.set 15 b) { c with fbuf := c.fbuf.set 15 b, fidx := 16, idle := 0 } with
      ⟨-, hh⟩ | ⟨-, hh⟩ <;> rw [hh, Channel.config, Channel.config]

theorem Channel.config_txDone (fail : Bool) (c : Channel) : (c.txDone fail).config = c.config := by
  rcases c.txDone_cases fail with ⟨-, hr⟩ | ⟨-, hr⟩
  · rw [hr]
  · rw [hr, Channel.config, Channel.config]

theorem Channel.config_pop (rkv : Bool) (rks : Schedule) (c : Channel) : (c.pop rkv rks).config = c.config := by
  rcases c.pop_cases rkv rks with ⟨-, hr⟩ | ⟨_, _, -, -, -, hr⟩
  · rw [hr]
  · rw [hr, Channel.config, Channel.config]

/-- The two states differ in their channels alone, and in no configuration of one. -/
def State.SameButChannels (s t : State) : Prop :=
  t = { s with chans := t.chans } ∧ t.chans.map Channel.config = s.chans.map Channel.config

theorem State.sameButChannels_modifyChan (s : State) (ch : Nat) {f : Channel → Channel} (hf : ∀ c, (f c).config = c.config) :
    s.SameButChannels (s.modifyChan ch f) := by
  refine ⟨rfl, List.ext_getElem? fun k => ?_⟩
  rw [List.getElem?_map, List.getElem?_map]
  by_cases hk : k = ch
  · subst hk
    rw [State.chan_modifyChan_same, Option.map_map, show Channel.config ∘ f = Channel.config from funext hf]
  · rw [State.chan_modifyChan_other _ _ hk]

/-- A WORKER_POP that is not enabled (R607). -/
theorem Channel.pop_of_not_enabled {rkv : Bool} {c : Channel} (h : rkv = false ∨ c.w ≠ .idle ∨ c.q = []) (rks : Schedule) :
    c.pop rkv rks = c := by
  rcases c.pop_cases rkv rks with ⟨-, hr⟩ | ⟨f, rest, hk, hw, hq, -⟩
  · exact hr
  · simp [hk, hw, hq] at h

end Sys2Proof.Machine

namespace Sys2Proof
open Sys2Proof.Machine

/-- Settles O26: the effects that reach a channel, and the channel each names. -/
theorem channelStateWriters : Obligations.ChannelStateWriters := by
  intro s t i h
  have heff := exec_effect h
  constructor
  · intro hi ch
    obtain ⟨c, rfl, ht⟩ := heff.of_isCommand hi
    refine (ht.chan ch).imp_right fun ⟨hc, hcleared⟩ => ⟨?_, hcleared⟩
    rw [hc, Command.toInstr]
  · intro hi ch hne
    cases heff with
    | command he ht =>
      obtain ⟨v, rfl, hv⟩ := he.hostWr hi
      obtain ⟨rfl, -⟩ := (ht.chan ch).resolve_left hne
      exact .inr (.inr (.inr (.inr (.inr (.inl ⟨v, rfl, hv⟩)))))
    | rxByte k b => exact .inl ⟨k, b, rfl, State.eq_of_modifyChan_ne hne⟩
    | tick => exact .inr (.inl rfl)
    | txDone k f => exact .inr (.inr (.inl ⟨k, f, rfl, State.eq_of_modifyChan_ne hne⟩))
    | workerPop k => exact .inr (.inr (.inr (.inl ⟨k, rfl, State.eq_of_modifyChan_ne hne⟩)))
    | hostWr off v r hr =>
      obtain rfl : r = .chCfg ch := State.writeReg_chan hne
      exact .inr (.inr (.inr (.inr (.inl ⟨off, v, rfl, (regAt_some hr).1.symm⟩))))
    | reset => exact .inr (.inr (.inr (.inr (.inr (.inr rfl)))))
    | evReserved | hostWrError | hostRd => exact absurd rfl hne

/-- Settles O27: no effect but a command's and RESET's touches ERR. -/
theorem errWriters : Obligations.ErrWriters := by
  intro s t i h hne
  cases exec_effect h with
  | @command _ c _ hi ht =>
    rcases hi with rfl | ⟨v, rfl, -⟩
    · exact .inl (isCommand_toInstr c)
    · exact .inr (.inl ⟨v, rfl⟩)
  | hostWr off v r => cases r <;> exact absurd rfl hne
  | reset => exact .inr (.inr rfl)
  | rxByte | tick | txDone | evReserved | workerPop | hostWrError | hostRd => exact absurd rfl hne

/-- Settles O28: the four things an instruction can do to the keys. -/
theorem keyAndScheduleWriters : Obligations.KeyAndScheduleWriters := by
  intro s t i h command
  rcases (exec_effect h).keys_cases with ⟨hk, hr, hl⟩ | ⟨he, hk⟩ | ⟨he, hk, hl⟩ | ⟨rfl, hk⟩
  · exact ⟨fun h0 h1 => by simp [h0, h1] at hk, fun h1 h0 => by simp [h0, h1] at hk, fun hne => absurd hr hne,
      fun hne => absurd hl hne⟩
  · exact ⟨fun _ _ => he, fun _ h0 => by simp [h0] at hk, fun _ => .inl he, fun _ => .inl he⟩
  · exact ⟨fun h0 h1 => by simp [h0, h1] at hk, fun h1 h0 => by simp [h0, h1] at hk, fun _ => .inr (.inl he),
      fun hne => absurd hl hne⟩
  · exact ⟨fun _ h1 => by simp [h1] at hk, fun _ _ => rfl, fun _ => .inr (.inr rfl), fun _ => .inr rfl⟩

/-- Settles O29: the writes of consecutive bytes an instruction can make, and where each lies. -/
theorem bufferWriters : Obligations.BufferWriters := by
  intro s t i a h hne command
  cases exec_effect h with
  | command hi ht =>
    cases ht with
    | padEnc hl =>
      obtain ⟨hlo, hhi⟩ := State.mem_range_of_writeBuf_ne hne
      rw [s.length_ciphertext] at hhi
      exact .inl ⟨hi, hlo, hhi⟩
    | decUnpad hl =>
      obtain ⟨hlo, hhi⟩ := State.mem_range_of_writeBuf_ne hne
      rw [List.length_append, List.length_singleton, ← Nat.add_assoc] at hhi
      exact .inr (.inl ⟨hi, hlo, Nat.le_of_lt_succ hhi⟩)
    | errOnly | clrCnt | keyExpand | reinit | encBlk | decBlk => exact absurd rfl hne
  | hostWr off v r hr =>
    obtain ⟨hb, hlo, hhi⟩ := State.writeReg_bufByte hne
    rw [(regAt_some hr).1] at hb hlo hhi
    exact .inr (.inr (.inl ⟨off, v, rfl, hb, hlo, hhi⟩))
  | reset => exact .inr (.inr (.inr rfl))
  | rxByte | tick | txDone | evReserved | workerPop | hostWrError | hostRd => exact absurd rfl hne

/-- Settles O30: each register's own writers, and that the parameters and the model's own fields have none. -/
theorem dataRegisterWriters : Obligations.DataRegisterWriters := by
  intro s t i h hi command write
  have heff := exec_effect h
  obtain ⟨hthresh, hmsg, hct, hkey, hdin, hdout⟩ := heff.dataRegisters hi
  obtain ⟨u, hu, hnch, hdepth⟩ := exec_sameParams i s
  cases hu.symm.trans h
  exact ⟨hthresh.resolve_left, hmsg.resolve_left, hct.resolve_left, hkey.resolve_left, hdin.resolve_left, hdout.resolve_left,
    hdepth, hnch, heff.ownFields hi⟩

/-- Settles O31: an event or a pop changes channels alone, and the configuration of none. -/
theorem eventAndPopFrame : Obligations.EventAndPopFrame := by
  intro s t i hi h
  obtain ⟨hframe, hconfig⟩ : s.SameButChannels t := by
    rcases hi with ⟨ch, b, rfl⟩ | rfl | ⟨ch, f, rfl⟩ | ⟨e, rfl⟩ | ⟨ch, rfl⟩ <;> cases h
    · exact s.sameButChannels_modifyChan _ (Channel.config_rxByte _ _ _)
    · exact ⟨rfl, List.map_map⟩
    · exact s.sameButChannels_modifyChan _ (Channel.config_txDone _)
    · exact ⟨rfl, rfl⟩
    · exact s.sameButChannels_modifyChan _ (Channel.config_pop _ _)
  refine ⟨hframe, by simpa using congrArg List.length hconfig, fun a => ?_, fun ch => ?_⟩
  · rw [hframe]
    rfl
  · have hch := congrArg (·[ch]?) hconfig
    simp only [List.getElem?_map] at hch
    exact hch

/-- Settles O37: each of the conditions leaves the channel as it is, or leaves no channel to change. -/
theorem workerPopNotEnabled : Obligations.WorkerPopNotEnabled := by
  intro s ch h
  refine congrArg Host.Outcome.next ?_
  rcases h with hk | habsent_or_not_ready
  · exact State.modifyChan_eq_self fun c _ => Channel.pop_of_not_enabled (.inl hk) _
  · exact State.modifyChan_eq_self_of_ignored (fun c hc => Channel.pop_of_not_enabled (.inr hc) _) habsent_or_not_ready

end Sys2Proof
end

section
/-! PROOFS. The host bus: which register each offset reaches, what each register reads as, and what a write of it stores
(20_memory.md R201 to R206, 10_state.md R104 to R118). -/

namespace Sys2Proof

/-! ### Byte lanes (R206) -/

theorem Col.getD_toList_ofWord (v : Word) {j : Nat} (h : j < 4) : (Col.ofWord v).toList.getD j 0 = v.extractLsb' (8 * j) 8 := by
  rw [← Col.lane_toWord _ h, Col.toWord_ofWord]

/-- Byte `4i + j` of a block is byte `j` of its column `i`. -/
theorem Block.getD_toList (b : Block) (i : Fin 4) {j : Nat} (h : j < 4) :
    b.toList.getD (4 * i + j) 0 = (b.col i).toList.getD j 0 := by
  interval_cases j <;> fin_cases i <;> rfl

/-- The bytes of a block with one column replaced. -/
theorem Block.getD_toList_setCol (b : Block) (i : Fin 4) (c : Col) {k : Nat} (hk : k < 16) :
    (b.setCol i c).toList.getD k 0 = if k / 4 = i then c.toList.getD (k % 4) 0 else b.toList.getD k 0 := by
  have hj : k / 4 < 4 := by omega
  have hbyte (x : Block) : x.toList.getD k 0 = (x.col ⟨k / 4, hj⟩).toList.getD (k % 4) 0 := by
    rw [← x.getD_toList ⟨k / 4, hj⟩ (Nat.mod_lt k (by decide)), Nat.div_add_mod]
  rw [hbyte, hbyte]
  split
  · rename_i hi
    rw [show (⟨k / 4, hj⟩ : Fin 4) = i from Fin.ext hi, Block.col_setCol_same]
  · rename_i hi
    rw [Block.col_setCol_other _ _ fun h => hi (congrArg Fin.val h)]

namespace Machine

/-! ### The register at each offset, whatever the number of channels is -/

/-- R201's offsets of a channel's four registers, for the channels the window has room for. -/
theorem regAt_chanReg {nch ch w : Nat} (h16 : ch < 16) (h : ch < nch) (hw : w < 4) :
    regAt nch (0x100 + 0x10 * ch + 4 * w) = some (chanReg ch w) := by
  have hch : (0x100 + 0x10 * ch + 4 * w - 0x100) / 0x10 = ch := by omega
  have hword : (0x100 + 0x10 * ch + 4 * w) % 0x10 / 4 = w := by omega
  rw [regAt, if_pos (by omega), mappedReg, if_neg (by omega), if_pos (by omega), hch, hword, if_pos h]

/-- The offsets of the registers of the block, its arrays and its buffers. -/
theorem regAt_block (nch : Nat) : regAt nch 0x000 = some .cmd ∧ regAt nch 0x004 = some .status ∧
    regAt nch 0x008 = some .resync ∧ regAt nch 0x00C = some .msgLen ∧
    regAt nch 0x010 = some .ctLen ∧ regAt nch 0x014 = some .param :=
  ⟨rfl, rfl, rfl, rfl, rfl, rfl⟩

theorem regAt_arrays (nch : Nat) (i : Fin 4) : regAt nch (0x020 + 4 * i) = some (.key i) ∧
    regAt nch (0x030 + 4 * i) = some (.din i) ∧ regAt nch (0x040 + 4 * i) = some (.dout i) := by
  fin_cases i <;> exact ⟨rfl, rfl, rfl⟩

theorem regAt_buffers (nch : Nat) (i : Fin 32) : regAt nch (0x200 + 4 * i) = some (.mbuf i) ∧
    regAt nch (0x300 + 4 * i) = some (.cbuf i) := by
  fin_cases i <;> exact ⟨rfl, rfl⟩

/-- A 32-bit access at a number below 0x400 reaches the register there. -/
theorem State.accessReg_ofNat {s : State} {n : Nat} {r : Reg} (hn : n < 0x400) (h : regAt s.numChannels n = some r) :
    s.accessReg .word (BitVec.ofNat 10 n) = some r := by
  rw [State.accessReg, if_pos rfl, BitVec.toNat_ofNat, Nat.mod_eq_of_lt hn, h]

/-! ### Reading -/

/-- No register shows the bus response, so a read leaves what the next one answers (R209). -/
theorem State.readReg_respond (s : State) (d : Word) (r : Reg) : (s.respond d).readReg r = s.readReg r := by
  cases r <;> rfl

/-- A read of a register answers its word, and so does the next one (R209). -/
theorem exec_hostRd_twice {s : State} {off : BitVec 10} {r : Reg} (h : s.accessReg .word off = some r) :
    ∃ t, exec (.hostRd .word off) s = .next t ∧ t = { s with resp := some ⟨false, s.readReg r⟩ } ∧
      t.readReg r = s.readReg r ∧ exec (.hostRd .word off) t = .next t := by
  refine ⟨s.respond (s.readReg r), exec_hostRd_of_some h, rfl, s.readReg_respond _ r, ?_⟩
  have hagain := exec_hostRd_of_some (s := s.respond (s.readReg r)) h
  rw [State.readReg_respond] at hagain
  exact hagain

/-! ### The fields of a word, each found at its place -/

theorem statusWord_fields (rkv : Bool) (e : Err) :
    (statusWord rkv e).extractLsb' 0 1 = BitVec.ofBool rkv ∧ (statusWord rkv e).extractLsb' 1 3 = 0 ∧
      (statusWord rkv e).extractLsb' 4 4 = e.code ∧ (statusWord rkv e).extractLsb' 8 24 = 0 := by
  unfold statusWord
  simp (disch := decide) only [BitVec.extractLsb'_append_eq_of_le, BitVec.extractLsb'_append_eq_of_add_le,
    BitVec.extractLsb'_eq_self, Nat.reduceSub, and_self]

theorem Channel.cfgWord_fields (c : Channel) :
    c.cfgWord.extractLsb' 0 1 = BitVec.ofBool c.en ∧ c.cfgWord.extractLsb' 1 1 = BitVec.ofBool c.role.bit ∧
      c.cfgWord.extractLsb' 2 2 = 0 ∧ c.cfgWord.extractLsb' 4 4 = c.out ∧ c.cfgWord.extractLsb' 8 24 = 0 := by
  unfold Channel.cfgWord
  simp (disch := decide) only [BitVec.extractLsb'_append_eq_of_le, BitVec.extractLsb'_append_eq_of_add_le,
    BitVec.extractLsb'_eq_self, Nat.reduceSub, and_self]

theorem Channel.statWord_fields (c : Channel) :
    c.statWord.extractLsb' 0 5 = c.fidx ∧ c.statWord.extractLsb' 5 3 = 0 ∧
      c.statWord.extractLsb' 8 1 = BitVec.ofBool c.w.busy ∧ c.statWord.extractLsb' 9 7 = 0 ∧
      c.statWord.extractLsb' 16 8 = BitVec.ofNat 8 c.q.length ∧ c.statWord.extractLsb' 24 8 = 0 := by
  unfold Channel.statWord
  simp (disch := decide) only [BitVec.extractLsb'_append_eq_of_le, BitVec.extractLsb'_append_eq_of_add_le,
    BitVec.extractLsb'_eq_self, Nat.reduceSub, and_self]

/-- ROLE's bit by its two values (R113). -/
theorem Role.ofBool_bit (r : Role) : BitVec.ofBool r.bit = if r = .encrypt then 0 else 1 := by
  cases r <;> rfl

/-- WBUSY by the consumer's two states (R114). -/
theorem Worker.ofBool_busy (w : Worker) : BitVec.ofBool w.busy = if w = .idle then 0 else 1 := by
  cases w <;> rfl

/-- A register of an existing channel. -/
theorem State.chanWord_of_some {s : State} {ch : Nat} {c : Channel} (h : s.chans[ch]? = some c) (f : Channel → Word) :
    s.chanWord ch f = f c := by
  rw [State.chanWord, h, Option.map_some, Option.getD_some]

/-! ### Buffer words (R206) -/

theorem State.lane_bufWord (s : State) (a : Nat) {j : Nat} (h : j < 4) :
    (s.bufWord a).extractLsb' (8 * j) 8 = s.bufByte (a + j) := by
  rw [State.bufWord, Col.lane_toWord _ h]
  interval_cases j <;> rfl

/-- A word written to four buffer bytes: its lanes, the other bytes, and the word read back. -/
theorem State.bufByte_writeBuf_lane (s : State) (a : Nat) (v : Word) {j : Nat} (h : j < 4) :
    (s.writeBuf a (Col.ofWord v).toList).bufByte (a + j) = v.extractLsb' (8 * j) 8 := by
  rw [s.bufByte_writeBuf_inside a (by simpa using h), Col.getD_toList_ofWord v h]

theorem State.bufWord_writeBuf (s : State) (a : Nat) (v : Word) : (s.writeBuf a (Col.ofWord v).toList).bufWord a = v := by
  have hlane {j : Nat} (h : j < 4) := s.bufByte_writeBuf_lane a v h
  have hlow : (s.writeBuf a (Col.ofWord v).toList).bufByte a = v.extractLsb' 0 8 := hlane (by decide : 0 < 4)
  rw [State.bufWord, hlow, hlane (by decide : 1 < 4), hlane (by decide : 2 < 4), hlane (by decide : 3 < 4)]
  exact Col.toWord_ofWord v

/-- A host write of a register that is one word of a buffer, `a` being the offset of its lowest byte. -/
theorem exec_hostWr_buffer {s : State} {off : BitVec 10} {r : Reg} {a : Nat} {v : Word} (hr : s.accessReg .word off = some r)
    (hcmd : r ≠ .cmd) (hwrite : s.writeReg v r = s.writeBuf a (Col.ofWord v).toList)
    (hread : ∀ t : State, t.readReg r = t.bufWord a) :
    ∃ t, exec (.hostWr .word off v) s = .next t ∧ t = { s with mem := t.mem, resp := some ⟨false, 0⟩ } ∧
      (∀ j < 4, t.bufByte (a + j) = v.extractLsb' (8 * j) 8) ∧
      (∀ k, ¬(a ≤ k ∧ k < a + 4) → t.bufByte k = s.bufByte k) ∧
      exec (.hostRd .word off) t = .next { t with resp := some ⟨false, v⟩ } := by
  have hexec := exec_hostWr_of_some hr hcmd v
  rw [hwrite] at hexec
  refine ⟨_, hexec, rfl, fun j hj => s.bufByte_writeBuf_lane a v hj, fun k hk => ?_, ?_⟩
  · exact (s.bufByte_writeBuf a _ k).trans (if_neg hk)
  · have hback := exec_hostRd_of_some (s := (s.writeBuf a (Col.ofWord v).toList).respond 0) hr
    rw [State.readReg_respond, hread, State.bufWord_writeBuf] at hback
    exact hback

end Machine

open Sys2Proof.Machine

/-- Settles O38: each offset reaches its register, and a read answers its word and changes nothing else. -/
theorem hostReadResult : Obligations.HostReadResult := by
  intro s answers
  have hanswers {n : Nat} {r : Reg} (hn : n < 0x400) (h : regAt s.numChannels n = some r) : answers n (s.readReg r) := by
    obtain ⟨t, ht, heq, -, hagain⟩ := exec_hostRd_twice (State.accessReg_ofNat hn h)
    exact ⟨t, ht, heq, hagain⟩
  refine ⟨?block, fun i => ?arrays, fun ch h16 hch => ?channel, fun i => ?buffers, fun off r hr => ?any⟩
  case block =>
    obtain ⟨h0, h4, h8, hC, h10, h14⟩ := regAt_block s.numChannels
    exact ⟨hanswers (by decide) h0, hanswers (by decide) h4, hanswers (by decide) h8, hanswers (by decide) hC,
      hanswers (by decide) h10, hanswers (by decide) h14⟩
  case arrays =>
    obtain ⟨hkey, hdin, hdout⟩ := regAt_arrays s.numChannels i
    exact ⟨hanswers (by omega) hkey, hanswers (by omega) hdin, hanswers (by omega) hdout⟩
  case channel =>
    have hreg {w : Nat} (hw : w < 4) := regAt_chanReg h16 hch hw
    have h4 := hreg (w := 1) (by decide)
    have h8 := hreg (w := 2) (by decide)
    have hC := hreg (w := 3) (by decide)
    rw [Nat.add_right_comm] at h4 h8 hC
    exact ⟨hanswers (by omega) (hreg (w := 0) (by decide)), hanswers (by omega) h4, hanswers (by omega) h8,
      hanswers (by omega) hC⟩
  case buffers =>
    obtain ⟨hmbuf, hcbuf⟩ := regAt_buffers s.numChannels i
    exact ⟨hanswers (by omega) hmbuf, hanswers (by omega) hcbuf⟩
  case any => exact exec_hostRd_twice ((if_pos rfl).trans hr)

/-- Settles O39: the word of each register is made of its fields, or of its four bytes. -/
theorem registerReadWords : Obligations.RegisterReadWords := by
  intro s
  have hwiden {n : Nat} (x : BitVec n) (h : n ≤ 32) : (x.setWidth 32).toNat = x.toNat := BitVec.toNat_setWidth_of_le h
  refine ⟨?status, ⟨hwiden _ (by decide), hwiden _ (by decide), hwiden _ (by decide)⟩, ?param, ⟨rfl, fun _ => rfl⟩,
    fun i => ?arrays, fun i j hj => ?buffers, fun ch c hc => ?channel⟩
  case status =>
    obtain ⟨hrkv, hres, herr, hres'⟩ := statusWord_fields s.rkv s.err
    refine ⟨hrkv, hres, herr, hres', herr.trans ?_⟩
    cases s.err <;> rfl
  case param => exact ⟨paramWord_nch _ _, paramWord_depth _ _, paramWord_maxMsg _ _, paramWord_reserved _ _⟩
  case arrays =>
    refine ⟨Col.ofWord_toWord _, Col.ofWord_toWord _, fun j hj => ?_⟩
    rw [s.din.getD_toList i hj, s.dout.getD_toList i hj]
    exact ⟨Col.lane_toWord _ hj, Col.lane_toWord _ hj⟩
  case buffers =>
    rw [← Nat.add_assoc, ← Nat.add_assoc]
    exact ⟨s.lane_bufWord _ hj, s.lane_bufWord _ hj⟩
  case channel =>
    simp only [State.readReg, State.chanWord_of_some hc]
    refine ⟨?cfg, ?stat, hwiden _ (by decide), hwiden _ (by decide)⟩
    case cfg =>
      rw [← Role.ofBool_bit]
      exact c.cfgWord_fields
    case stat =>
      rw [← Worker.ofBool_busy]
      exact c.statWord_fields

/-- Settles O43: the two buffers' words are four buffer bytes each. -/
theorem bufferWordLanes : Obligations.BufferWordLanes := by
  intro s v i base hbase off
  obtain ⟨hmbuf, hcbuf⟩ := regAt_buffers s.numChannels i
  rcases hbase with rfl | rfl
  · exact exec_hostWr_buffer (State.accessReg_ofNat (by omega) hmbuf) nofun rfl fun _ => rfl
  · exact exec_hostWr_buffer (State.accessReg_ofNat (by omega) hcbuf) nofun rfl fun _ => rfl

/-- Settles O42: the register at each offset, and the bytes of a word put into an array. -/
theorem hostWriteStores : Obligations.HostWriteStores := by
  intro s v
  have hwrite {n : Nat} {r : Reg} (hn : n < 0x400) (h : regAt s.numChannels n = some r) (hr : r ≠ .cmd) :=
    exec_hostWr_of_some (State.accessReg_ofNat hn h) hr v
  obtain ⟨-, -, hresync, hmsgLen, hctLen, -⟩ := regAt_block s.numChannels
  refine ⟨hwrite (by decide) hresync nofun, hwrite (by decide) hmsgLen nofun, hwrite (by decide) hctLen nofun, fun i => ?_⟩
  intro bytes
  obtain ⟨hkey, hdin, -⟩ := regAt_arrays s.numChannels i
  refine ⟨hwrite (by omega) hkey nofun, hwrite (by omega) hdin nofun, fun b k hk => ?_⟩
  rw [Block.getD_toList_setCol _ _ _ hk, ← Col.getD_toList_ofWord v (Nat.mod_lt k (by decide))]
  rfl

end Sys2Proof
end

section
/-! PROOFS. Whole-channel properties (45_framer_queue.md): independence, whole frames, overflow, and the transmit port. -/

namespace Sys2Proof

/-! ### A frame filled byte by byte -/

/-- A block with consecutive bytes replaced from byte `k` on. -/
def Block.fill (b : Block) (k : Nat) : List Byte → Block
  | [] => b
  | v :: vs => (b.set k v).fill (k + 1) vs

/-- A fill keeps the bytes before it. -/
theorem Block.toList_fill {k : Nat} {bs : List Byte} (b : Block) (h : k + bs.length = 16) :
    (b.fill k bs).toList = b.toList.take k ++ bs := by
  induction bs generalizing b k with
  | nil =>
    obtain rfl : k = 16 := h
    exact (List.append_nil _).symm
  | cons v vs ih =>
    rw [List.length_cons] at h
    have hk : k < b.toList.length := by rw [Block.length_toList]; omega
    rw [Block.fill, ih _ (by omega), Block.toList_set, List.take_set, List.take_add_one, List.getElem?_eq_getElem hk,
      Option.toList_some, List.set_append_right _ _ (by simp), List.length_take_of_le hk.le, Nat.sub_self, List.set_cons_zero,
      List.append_assoc, List.singleton_append]

/-- Sixteen bytes filled in from byte 0 on are the block of those bytes. -/
theorem Block.fill_zero {bs : List Byte} (b : Block) (h : bs.length = 16) : b.fill 0 bs = Block.ofBytes fun k => bs.getD k 0 := by
  have hlist : (b.fill 0 bs).toList = bs := b.toList_fill (by omega)
  calc b.fill 0 bs = Block.ofBytes fun k => (b.fill 0 bs).toList.getD k 0 := (Block.ofBytes_toList _).symm
    _ = Block.ofBytes fun k => bs.getD k 0 := by rw [hlist]

namespace Machine

/-! ### Sixteen bytes are a frame (R602, R604) -/

/-- The bytes from index `k` up to the last one of a frame, with no gap after the first. -/
theorem Channel.foldl_rxByte {thresh : BitVec 16} {depth k : Nat} {bs : List Byte} {c : Channel} (he : c.en = true)
    (hi : (c.rxIndex thresh).toNat = k) (hq : c.q.length < depth) (hlen : k + bs.length = 16) (hne : bs ≠ []) :
    bs.foldl (fun c b => c.rxByte thresh depth b) c =
      { c with fbuf := c.fbuf.fill k bs, fidx := 0, idle := 0, q := c.q ++ [c.fbuf.fill k bs] } := by
  induction bs generalizing c k with
  | nil => exact absurd rfl hne
  | cons b bs ih =>
    rw [List.length_cons] at hlen
    rw [List.foldl_cons]
    cases bs with
    | nil =>
      obtain rfl : k = 15 := by simpa using hlen
      rw [Channel.rxByte_of_room he hi hq]
      rfl
    | cons b' bs =>
      rw [List.length_cons] at hlen
      rw [Channel.rxByte_of_index_ne he (by omega), hi]
      refine ih he ?_ hq (by simp; omega) (by simp)
      refine (Channel.toNat_rxIndex _ _).trans ((if_neg (Nat.not_lt_zero _)).trans ?_)
      exact (BitVec.toNat_ofNat _ _).trans (Nat.mod_eq_of_lt (by omega))

/-- Bytes delivered to one channel, as a change of that channel. -/
theorem execAll_rxByte {s : State} {ch : BitVec 4} {c : Channel} (bs : List Byte) (h : s.chans[ch.toNat]? = some c) :
    execAll (bs.map (.rxByte ch)) s =
      .next { s with chans := s.chans.set ch.toNat (bs.foldl (fun c b => c.rxByte s.thresh s.queueDepth b) c) } := by
  induction bs generalizing s c with
  | nil =>
    obtain ⟨_, rfl⟩ := List.getElem?_eq_some_iff.1 h
    rw [List.foldl_nil, List.set_getElem_self]
    rfl
  | cons b bs ih =>
    have hlt : ch.toNat < s.chans.length := (List.getElem?_eq_some_iff.1 h).1
    rw [List.map_cons, execAll, exec_rxByte_of_some h]
    simp only
    rw [ih (List.getElem?_set_self hlt), List.set_set, List.foldl_cons]

/-! ### Overflow (R604, R605) -/

/-- A counter that saturated once more is saturated at the sum (R605). -/
theorem satInc_add (n : BitVec 16) (k : Nat) :
    BitVec.ofNat 16 (min ((satInc n).toNat + k) 0xFFFF) = BitVec.ofNat 16 (min (n.toNat + (k + 1)) 0xFFFF) := by
  rw [satInc_eq, BitVec.toNat_ofNat]
  congr 1
  omega

theorem ofNat_min_toNat (n : BitVec 16) : BitVec.ofNat 16 (min n.toNat 0xFFFF) = n := by
  have := n.isLt
  rw [min_eq_left (by omega), BitVec.ofNat_toNat, BitVec.setWidth_eq]

/-- Frames handed off to a queue within its depth: as many are queued as there is room for, the others are counted. -/
theorem Channel.foldl_handoff {depth : Nat} {c : Channel} (fs : List Block) (hq : c.q.length ≤ depth) :
    fs.foldl (fun c f => c.handoff depth f) c =
      { c with
        q := c.q ++ fs.take (depth - c.q.length),
        qdrop := BitVec.ofNat 16 (min (c.qdrop.toNat + (fs.length - (depth - c.q.length))) 0xFFFF) } := by
  induction fs generalizing c with
  | nil => simp [ofNat_min_toNat]
  | cons f fs ih =>
    rw [List.foldl_cons]
    rcases Channel.handoff_cases depth f c with ⟨hroom, hh⟩ | ⟨hfull, hh⟩
    · rw [hh, ih (by simpa using hroom)]
      obtain ⟨r, hr⟩ : ∃ r, depth - c.q.length = r + 1 := ⟨depth - c.q.length - 1, by omega⟩
      have hr' : depth - (c.q ++ [f]).length = r := by simp; omega
      simp only [hr, hr', List.take_succ_cons, List.append_assoc, List.singleton_append, List.length_cons, Nat.add_sub_add_right]
    · have hzero : depth - c.q.length = 0 := by omega
      rw [hh, ih (c := { c with qdrop := satInc c.qdrop }) hq]
      simp only [hzero, List.take_zero, Nat.sub_zero, satInc_add, List.length_cons]

/-! ### One channel's instructions (R600) -/

/-- The change an event, a pop or a CHCFG write makes to its channel; of the rest of the block it reads THRESH, QUEUE_DEPTH, RKV and
the schedule alone. -/
def channelChange (i : Instr) (s : State) : Channel → Channel :=
  match i with
  | .rxByte _ b => Channel.rxByte s.thresh s.queueDepth b
  | .txDone _ fail => Channel.txDone fail
  | .workerPop _ => Channel.pop s.rkv s.rks
  | .hostWr _ _ v => Channel.writeCfg s.rkv v
  | _ => id

theorem channelChange_congr (i : Instr) {s s' : State} (ht : s'.thresh = s.thresh) (hd : s'.queueDepth = s.queueDepth)
    (hk : s'.rkv = s.rkv) (hr : s'.rks = s.rks) : channelChange i s' = channelChange i s := by
  unfold channelChange
  rw [ht, hd, hk, hr]

/-- The instruction is an event or a consumer step of channel `ch`. -/
def EventOrPopOf (ch : BitVec 4) (i : Instr) : Prop := (∃ b, i = .rxByte ch b) ∨ (∃ f, i = .txDone ch f) ∨ i = .workerPop ch

theorem EventOrPopOf.exec {ch : BitVec 4} {i : Instr} (h : EventOrPopOf ch i) (s : State) :
    exec i s = .next (s.modifyChan ch.toNat (channelChange i s)) := by
  rcases h with ⟨b, rfl⟩ | ⟨f, rfl⟩ | rfl <;> rfl

/-- A CHCFG write changes its channel, which is no change where the channel does not exist (R202, R601). -/
theorem chans_hostWr_chCfg {s t : State} {ch : BitVec 4} {v : Word}
    (h : exec (.hostWr .word (BitVec.ofNat 10 (0x100 + 0x10 * ch.toNat)) v) s = .next t) :
    t.chans = s.chans.modify ch.toNat (Channel.writeCfg s.rkv v) := by
  have h16 := ch.isLt
  cases hc : s.chans[ch.toNat]? with
  | none =>
    have habsent : s.numChannels ≤ ch.toNat := List.getElem?_eq_none_iff.1 hc
    have herror : exec (.hostWr .word (BitVec.ofNat 10 (0x100 + 0x10 * ch.toNat)) v) s = .next s.busError :=
      exec_hostWr_of_none (State.accessReg_eq_none_iff.2 (.inr (.inr (by
        rw [BitVec.toNat_ofNat, Nat.mod_eq_of_lt (by omega), unmapped]
        omega)))) v
    cases herror.symm.trans h
    exact (congrArg State.chans (State.modifyChan_none hc _)).symm
  | some c =>
    cases (exec_hostWr_chCfg h16 hc v).symm.trans h
    exact (congrArg State.chans (State.modifyChan_eq_set hc _)).symm

end Machine

open Sys2Proof.Machine

/-- Settles O47: each of the instructions is a change of its channel, by the four fields it may read. -/
theorem channelsIndependent : Obligations.ChannelsIndependent := by
  intro s s' t t' i ch hi h
  have hchans {u u' : State} (hu : exec i u = .next u') : u'.chans = u.chans.modify ch.toNat (channelChange i u) := by
    rcases hi with hb | hf | hp | ⟨v, rfl⟩
    · cases (EventOrPopOf.exec (.inl hb) u).symm.trans hu
      rfl
    · cases (EventOrPopOf.exec (.inr (.inl hf)) u).symm.trans hu
      rfl
    · cases (EventOrPopOf.exec (.inr (.inr hp)) u).symm.trans hu
      rfl
    · exact chans_hostWr_chCfg hu
  constructor
  · intro k hk
    rw [hchans h]
    exact s.chan_modifyChan_other _ hk
  · intro hc ht hd hk hr h'
    rw [hchans h, hchans h', List.getElem?_modify, List.getElem?_modify, hc, channelChange_congr i ht hd hk hr]

/-- Settles O48: each of the two is a change of its own channel, and reads nothing the other changes. -/
theorem differentChannelsCommute : Obligations.DifferentChannelsCommute := by
  intro s i j ch ch' hne hi hj
  have hne' : ch.toNat ≠ ch'.toNat := fun h => hne (BitVec.eq_of_toNat_eq h)
  have htwo {i j : Instr} {ch ch' : BitVec 4} (hi : EventOrPopOf ch i) (hj : EventOrPopOf ch' j) : execAll [i, j] s =
      .next ((s.modifyChan ch.toNat (channelChange i s)).modifyChan ch'.toNat (channelChange j s)) := by
    simp only [execAll, hi.exec, hj.exec]
    rw [channelChange_congr j (s := s) (s' := s.modifyChan _ _) rfl rfl rfl rfl]
  rw [htwo hi hj, htwo hj hi, State.modifyChan_comm _ _ _ hne']

/-- Settles O49: the sixteen bytes are folded into the channel, from index 0, whatever the idle counter was. -/
theorem sixteenBytesCompleteFrame : Obligations.SixteenBytesCompleteFrame := by
  intro s ch c bs hc he hidx hq hlen f
  have hzero : (c.rxIndex s.thresh).toNat = 0 := by
    rw [Channel.toNat_rxIndex, hidx]
    exact ite_self 0
  rw [execAll_rxByte bs hc, Channel.foldl_rxByte he hzero hq (by omega) (by rintro rfl; cases hlen), Block.fill_zero _ hlen]

/-- Settles O50: an empty queue has room for its whole depth. -/
theorem overflowDropsExcess : Obligations.OverflowDropsExcess := by
  intro depth c fs hq
  rw [Channel.foldl_handoff fs (by simp [hq]), hq]
  rfl

/-- Settles O52: the request is the consumer's state, channel by channel. -/
theorem transmitPort : Obligations.TransmitPort := by
  intro s ch
  unfold State.txRequest
  cases hc : s.chans[ch]? with
  | none =>
    have habsent : s.numChannels ≤ ch := List.getElem?_eq_none_iff.1 hc
    simp [habsent]
  | some c =>
    have hlt : ch < s.numChannels := (List.getElem?_eq_some_iff.1 hc).1
    cases hw : c.w <;> simp [hw, hlt]

end Sys2Proof
end

section
/-! PROOFS. The frame buffer's bytes at and above the write index cannot be observed (10_state.md R123). -/

namespace Sys2Proof

/-! ### Frame buffers alike below an index -/

/-- Frame buffers alike below index `i` are alike up to it once the same byte is stored there. -/
theorem Block.getElem?_toList_set {a b : Block} {i : Nat} (h : ∀ k < i, a.toList[k]? = b.toList[k]?) (v : Byte) :
    ∀ k < i + 1, (a.set i v).toList[k]? = (b.set i v).toList[k]? := by
  intro k hk
  rw [Block.toList_set, Block.toList_set, List.getElem?_set, List.getElem?_set, Block.length_toList, Block.length_toList]
  split
  · rfl
  · exact h k (by omega)

/-- A block is its sixteen bytes. -/
theorem Block.eq_of_getElem?_toList {a b : Block} (h : ∀ k < 16, a.toList[k]? = b.toList[k]?) : a = b := by
  have hlist : a.toList = b.toList := by
    refine List.ext_getElem? fun k => ?_
    by_cases hk : k < 16
    · exact h k hk
    · rw [List.getElem?_eq_none (by simpa using hk), List.getElem?_eq_none (by simpa using hk)]
  rw [← Block.ofBytes_toList a, hlist, Block.ofBytes_toList]

namespace Machine

/-! ### Channels that agree -/

/-- Channels that agree are one channel with two frame buffers, alike below the write index. -/
theorem Channel.agree_iff {c d : Channel} :
    c.Agree d ↔ ∃ x : Block, d = { c with fbuf := x } ∧ ∀ k < c.fidx.toNat, c.fbuf.toList[k]? = x.toList[k]? := by
  constructor
  · rintro ⟨hcd, hbytes⟩
    exact ⟨d.fbuf, (congrArg (fun u : Channel => { u with fbuf := d.fbuf }) hcd).symm, hbytes⟩
  · rintro ⟨x, rfl, hbytes⟩
    exact ⟨rfl, hbytes⟩

theorem Channel.Agree.refl (c : Channel) : c.Agree c := ⟨rfl, fun _ _ => rfl⟩

/-- A change that neither reads nor writes the frame buffer, and does not raise the write index, keeps agreement. -/
theorem Channel.Agree.map {c d : Channel} (h : c.Agree d) {f : Channel → Channel}
    (hf : ∀ x : Block, f { c with fbuf := x } = { f c with fbuf := x }) (hidx : (f c).fidx.toNat ≤ c.fidx.toNat) :
    (f c).Agree (f d) := by
  obtain ⟨x, rfl, hbytes⟩ := Channel.agree_iff.1 h
  have hown : (f c).fbuf = ({ f c with fbuf := c.fbuf } : Channel).fbuf := congrArg Channel.fbuf (hf c.fbuf)
  refine Channel.agree_iff.2 ⟨x, hf x, fun k hk => ?_⟩
  rw [hown]
  exact hbytes k (by omega)

theorem Channel.Agree.txDone {c d : Channel} (h : c.Agree d) (fail : Bool) : (c.txDone fail).Agree (d.txDone fail) := by
  cases hw : c.w with
  | idle => exact h.map (fun x => by simp only [Channel.txDone, hw]) (by simp only [Channel.txDone, hw, le_refl])
  | hold => exact h.map (fun x => by simp only [Channel.txDone, hw]) (by simp only [Channel.txDone, hw, le_refl])

theorem Channel.Agree.pop {c d : Channel} (h : c.Agree d) (rkv : Bool) (rks : Schedule) :
    (c.pop rkv rks).Agree (d.pop rkv rks) := by
  rcases c.pop_cases rkv rks with ⟨hoff, -⟩ | ⟨f, rest, rfl, hw, hq, -⟩
  · obtain ⟨x, rfl, -⟩ := Channel.agree_iff.1 h
    rwa [Channel.pop_of_not_enabled hoff, Channel.pop_of_not_enabled (c := { c with fbuf := x }) hoff]
  · refine h.map (fun x => ?_) ?_
    · rw [Channel.pop_of_enabled hw hq, Channel.pop_of_enabled (c := { c with fbuf := x }) hw hq]
    · rw [Channel.pop_of_enabled hw hq]

theorem Channel.Agree.writeCfg {c d : Channel} (h : c.Agree d) (rkv : Bool) (v : Word) :
    (c.writeCfg rkv v).Agree (d.writeCfg rkv v) := by
  refine h.map (fun _ => rfl) ?_
  simp only [Channel.writeCfg]
  split
  · exact Nat.zero_le _
  · exact le_rfl

/-- The byte is stored at the write index or below it, so what it completes is a frame of bytes all alike. -/
theorem Channel.Agree.rxByte {c d : Channel} (h : c.Agree d) (thresh : BitVec 16) (depth : Nat) (b : Byte) :
    (c.rxByte thresh depth b).Agree (d.rxByte thresh depth b) := by
  obtain ⟨x, rfl, hbytes⟩ := Channel.agree_iff.1 h
  have hbelow : ∀ k < (c.rxIndex thresh).toNat, c.fbuf.toList[k]? = x.toList[k]? := by
    intro k hk
    rw [Channel.toNat_rxIndex] at hk
    split at hk
    · exact absurd hk k.not_lt_zero
    · exact hbytes k hk
  have hstored := Block.getElem?_toList_set hbelow b
  by_cases he : c.en = true
  swap
  · have hoff : c.en = false := Bool.eq_false_iff.2 he
    rwa [Channel.rxByte_of_disabled hoff, Channel.rxByte_of_disabled (c := { c with fbuf := x }) hoff]
  by_cases hi : (c.rxIndex thresh).toNat = 15
  · rw [hi] at hstored
    rw [Channel.rxByte_of_index_eq he hi, Channel.rxByte_of_index_eq (c := { c with fbuf := x }) he hi,
      Block.eq_of_getElem?_toList hstored]
    exact Channel.Agree.refl _
  · rw [Channel.rxByte_of_index_ne he hi, Channel.rxByte_of_index_ne (c := { c with fbuf := x }) he hi]
    refine Channel.agree_iff.2 ⟨_, rfl, fun k hk => hstored k (hk.trans_le ?_)⟩
    exact (BitVec.toNat_ofNat _ _).trans_le (Nat.mod_le _ _)

/-- A write that reaches CMD is the command its value encodes (R400). -/
theorem exec_hostWr_of_cmd {s : State} {size : AccessSize} {off : BitVec 10} {v : Word} (h : s.accessReg size off = some .cmd) :
    exec (.hostWr size off v) s = runCommand (decodeCmd s.numChannels v) s := by
  simp only [exec, execHostWr, h]

/-! ### States that agree -/

/-- States that agree are one state with two lists of channels that agree. -/
theorem State.agree_iff {s s' : State} :
    s.Agree s' ↔ ∃ cs : List Channel, s' = { s with chans := cs } ∧ List.Forall₂ Channel.Agree s.chans cs := by
  constructor
  · rintro ⟨hs, hchans⟩
    exact ⟨s'.chans, (congrArg (fun u : State => { u with chans := s'.chans }) hs).symm, hchans⟩
  · rintro ⟨cs, rfl, hchans⟩
    exact ⟨rfl, hchans⟩

theorem State.Agree.refl (s : State) : s.Agree s := ⟨rfl, List.forall₂_same.2 fun c _ => Channel.Agree.refl c⟩

theorem forall₂_modify {R : Channel → Channel → Prop} {f g : Channel → Channel} (hfg : ∀ c d, R c d → R (f c) (g d))
    {l l' : List Channel} (h : List.Forall₂ R l l') (n : Nat) : List.Forall₂ R (l.modify n f) (l'.modify n g) := by
  induction h generalizing n with
  | nil => cases n <;> exact .nil
  | cons hcd h ih =>
    cases n with
    | zero => exact .cons (hfg _ _ hcd) h
    | succ n => exact .cons hcd (ih n)

/-- The same change of a channel in both states keeps agreement. -/
theorem State.Agree.modifyChan {s : State} {cs : List Channel} (h : List.Forall₂ Channel.Agree s.chans cs) (ch : Nat)
    {f : Channel → Channel} (hf : ∀ c d : Channel, c.Agree d → (f c).Agree (f d)) :
    (s.modifyChan ch f).Agree ({ s with chans := cs }.modifyChan ch f) := ⟨rfl, forall₂_modify hf h ch⟩

/-- What does not read the frame buffers is the same of channels that agree. -/
theorem map_eq_of_agree {α : Type} {f : Channel → α} (hf : ∀ (c : Channel) (x : Block), f { c with fbuf := x } = f c)
    {l l' : List Channel} (h : List.Forall₂ Channel.Agree l l') : l'.map f = l.map f := by
  induction h with
  | nil => rfl
  | cons hcd _ ih =>
    obtain ⟨x, rfl, -⟩ := Channel.agree_iff.1 hcd
    rw [List.map_cons, List.map_cons, ih, hf]

section
variable {s : State} {cs : List Channel}

/-- Quiescence does not read the frame buffers (R407). -/
theorem State.quiescent_of_agree (h : List.Forall₂ Channel.Agree s.chans cs) :
    ({ s with chans := cs } : State).quiescent = s.quiescent := by
  have hmap := map_eq_of_agree (f := fun c : Channel => decide c.atRest) (fun _ _ => rfl) h
  have hall := congrArg (List.all · id) hmap
  simp only [List.all_map] at hall
  exact hall

/-- No register's word shows the frame buffers (R104 to R118). -/
theorem State.readReg_of_agree (h : List.Forall₂ Channel.Agree s.chans cs) (r : Reg) :
    ({ s with chans := cs } : State).readReg r = s.readReg r := by
  have hword (ch : Nat) {f : Channel → Word} (hf : ∀ (c : Channel) (x : Block), f { c with fbuf := x } = f c) :
      ({ s with chans := cs } : State).chanWord ch f = s.chanWord ch f := by
    simp only [State.chanWord, ← List.getElem?_map, map_eq_of_agree hf h]
  cases r with
  | chCfg ch | chStat ch | qdrop ch | txfail ch => exact hword ch fun _ _ => rfl
  | param => exact congrArg (paramWord · s.queueDepth) h.length_eq.symm
  | cmd | status | resync | msgLen | ctLen | key | din | dout | mbuf | cbuf => rfl

/-- A register write other than a command does the same in both states. -/
theorem State.writeReg_agree (h : List.Forall₂ Channel.Agree s.chans cs) (v : Word) (r : Reg) :
    (s.writeReg v r).Agree (({ s with chans := cs } : State).writeReg v r) := by
  cases r with
  | chCfg ch => exact State.Agree.modifyChan h ch fun _ _ hcd => hcd.writeCfg s.rkv v
  | cmd | status | resync | msgLen | ctLen | param | key | din | dout | chStat | qdrop | txfail | mbuf | cbuf => exact ⟨rfl, h⟩

/-- Every command does the same in both states. -/
theorem runCommand_agree (h : List.Forall₂ Channel.Agree s.chans cs) (c : Command) :
    ∃ t t', runCommand c s = .next t ∧ runCommand c { s with chans := cs } = .next t' ∧ t.Agree t' := by
  have hlen : ({ s with chans := cs } : State).numChannels = s.numChannels := h.length_eq.symm
  cases c with
  | nop | badCmd w => exact ⟨_, _, rfl, rfl, rfl, h⟩
  | clrCnt ch =>
    by_cases hch : ch.toNat < s.numChannels
    · have hcleared := State.Agree.modifyChan h ch.toNat (f := Channel.clearCounters) fun _ _ hcd => hcd.map (fun _ => rfl) le_rfl
      exact ⟨_, _, if_pos hch, if_pos (hlen ▸ hch), rfl, hcleared.2⟩
    · exact ⟨_, _, if_neg hch, if_neg (hlen ▸ hch), rfl, h⟩
  | keyExpand =>
    have hq := State.quiescent_of_agree h
    by_cases hs : s.quiescent = true
    · exact ⟨_, _, if_pos hs, if_pos (hq.trans hs), rfl, h⟩
    · exact ⟨_, _, if_neg hs, if_neg (hq ▸ hs), rfl, h⟩
  | reinit | encBlk | decBlk =>
    by_cases hk : s.rkv = true
    · exact ⟨_, _, if_pos hk, if_pos hk, rfl, h⟩
    · exact ⟨_, _, if_neg hk, if_neg hk, rfl, h⟩
  | padEnc =>
    by_cases hk : s.rkv = true
    · by_cases hl : padLen s.msgLen.toNat ≤ Config.maxMsg
      · exact ⟨_, _, (if_pos hk).trans (if_pos hl), (if_pos hk).trans (if_pos hl), rfl, h⟩
      · exact ⟨_, _, (if_pos hk).trans (if_neg hl), (if_pos hk).trans (if_neg hl), rfl, h⟩
    · exact ⟨_, _, if_neg hk, if_neg hk, rfl, h⟩
  | decUnpad =>
    by_cases hk : s.rkv = true
    · by_cases hl : s.ctLenOk = true
      · by_cases hp : padAccepted s.plaintext = true
        · exact ⟨_, _, (if_pos hk).trans ((if_pos hl).trans (if_pos hp)),
            (if_pos hk).trans ((if_pos hl).trans (if_pos hp)), rfl, h⟩
        · exact ⟨_, _, (if_pos hk).trans ((if_pos hl).trans (if_neg hp)),
            (if_pos hk).trans ((if_pos hl).trans (if_neg hp)), rfl, h⟩
      · exact ⟨_, _, (if_pos hk).trans (if_neg hl), (if_pos hk).trans (if_neg hl), rfl, h⟩
    · exact ⟨_, _, if_neg hk, if_neg hk, rfl, h⟩

/-- Every instruction does the same in both states. -/
theorem exec_agree (h : List.Forall₂ Channel.Agree s.chans cs) (i : Instr) :
    ∃ t t', exec i s = .next t ∧ exec i { s with chans := cs } = .next t' ∧ t.Agree t' := by
  have hlen : ({ s with chans := cs } : State).numChannels = s.numChannels := h.length_eq.symm
  have hreach (size : AccessSize) (off : BitVec 10) :
      ({ s with chans := cs } : State).accessReg size off = s.accessReg size off := by
    rw [State.accessReg, State.accessReg, hlen]
  cases i with
  | nop => exact runCommand_agree h .nop
  | keyExpand => exact runCommand_agree h .keyExpand
  | encBlk => exact runCommand_agree h .encBlk
  | decBlk => exact runCommand_agree h .decBlk
  | padEnc => exact runCommand_agree h .padEnc
  | decUnpad => exact runCommand_agree h .decUnpad
  | reinit => exact runCommand_agree h .reinit
  | clrCnt ch => exact runCommand_agree h (.clrCnt ch)
  | badCmd w => exact runCommand_agree h (.badCmd w)
  | rxByte ch b => exact ⟨_, _, rfl, rfl, State.Agree.modifyChan h ch.toNat fun _ _ hcd => hcd.rxByte s.thresh s.queueDepth b⟩
  | tick =>
    refine ⟨_, _, rfl, rfl, rfl, ?_⟩
    rw [List.forall₂_map_left_iff, List.forall₂_map_right_iff]
    exact h.imp fun _ _ hcd => hcd.map (fun _ => rfl) le_rfl
  | txDone ch fail => exact ⟨_, _, rfl, rfl, State.Agree.modifyChan h ch.toNat fun _ _ hcd => hcd.txDone fail⟩
  | evReserved e => exact ⟨_, _, rfl, rfl, rfl, h⟩
  | workerPop ch => exact ⟨_, _, rfl, rfl, State.Agree.modifyChan h ch.toNat fun _ _ hcd => hcd.pop s.rkv s.rks⟩
  | hostWr size off v =>
    cases hr : s.accessReg size off with
    | none => exact ⟨_, _, exec_hostWr_of_none hr v, exec_hostWr_of_none ((hreach size off).trans hr) v, rfl, h⟩
    | some r =>
      by_cases hcmd : r = .cmd
      · subst hcmd
        rw [exec_hostWr_of_cmd hr, exec_hostWr_of_cmd ((hreach size off).trans hr), hlen]
        exact runCommand_agree h _
      · obtain ⟨ht, hc⟩ := State.writeReg_agree h v r
        exact ⟨_, _, exec_hostWr_of_some hr hcmd v, exec_hostWr_of_some ((hreach size off).trans hr) hcmd v,
          congrArg (State.respond · 0) ht, hc⟩
  | hostRd size off =>
    cases hr : s.accessReg size off with
    | none => exact ⟨_, _, exec_hostRd_of_none hr, exec_hostRd_of_none ((hreach size off).trans hr), rfl, h⟩
    | some r =>
      have hread := exec_hostRd_of_some ((hreach size off).trans hr)
      rw [State.readReg_of_agree h] at hread
      exact ⟨_, _, exec_hostRd_of_some hr, hread, rfl, h⟩
  | reset =>
    refine ⟨_, _, rfl, congrArg Host.Outcome.next ?_, State.Agree.refl _⟩
    rw [hlen]

end

end Machine

open Sys2Proof.Machine

/-- Settles O51: the two states are one with two lists of channels that agree, and an instruction's next state is unique. -/
theorem frameBufferUnobservable : Obligations.FrameBufferUnobservable := by
  intro s s' t t' i hs ht ht'
  obtain ⟨cs, rfl, hchans⟩ := State.agree_iff.1 hs
  obtain ⟨u, u', hu, hu', hagree⟩ := exec_agree hchans i
  cases hu.symm.trans ht
  cases hu'.symm.trans ht'
  exact hagree

end Sys2Proof
end

section
/-! PROOFS. The field of the cipher (41_tables_gf.md): the multiplier's laws and the substitution box. The laws are proved for all
bytes from two facts: doubling is additive, and every byte is the sum of some of the eight doublings of 1. -/

namespace Sys2Proof

/-! ### Multiplication as a sum of doublings (R430, R431) -/

theorem ite_xor (p q : Bool) (x : Byte) : (if p ^^ q then x else 0) = (if p then x else 0) ^^^ if q then x else 0 := by
  cases p <;> cases q <;> simp

theorem xtime_eq_xor (a : Byte) : xtime a = a <<< 1 ^^^ if a.getLsbD 7 then 0x1B else 0 := by
  unfold xtime
  cases a.getLsbD 7 <;> simp

theorem xtime_xor (a b : Byte) : xtime (a ^^^ b) = xtime a ^^^ xtime b := by
  simp only [xtime_eq_xor, BitVec.shiftLeft_xor_distrib, BitVec.getLsbD_xor, ite_xor]
  ac_rfl

theorem xtime_zero : xtime 0 = 0 := by decide

theorem iterate_xtime_xor (n : Nat) (a b : Byte) : xtime^[n] (a ^^^ b) = xtime^[n] a ^^^ xtime^[n] b := by
  induction n with
  | zero => rfl
  | succ n ih => rw [Function.iterate_succ_apply', Function.iterate_succ_apply', Function.iterate_succ_apply', ih, xtime_xor]

/-- The sum of the doublings of `a` over the bits of `b` below `n`. -/
def gmulSum (a b : Byte) : Nat → Byte
  | 0 => 0
  | n + 1 => gmulSum a b n ^^^ if b.getLsbD n then xtime^[n] a else 0

/-- R431's loop after `n` turns. -/
theorem foldl_gmulStep (a b : Byte) (n : Nat) : (List.range n).foldl (gmulStep b) (0, a) = (gmulSum a b n, xtime^[n] a) := by
  induction n with
  | zero => rfl
  | succ n ih =>
    rw [List.range_succ, List.foldl_append, ih, List.foldl_cons, List.foldl_nil, gmulStep, gmulSum, Function.iterate_succ_apply']
    cases b.getLsbD n <;> simp

theorem gmul_eq_sum (a b : Byte) : gmul a b = gmulSum a b 8 := congrArg Prod.fst (foldl_gmulStep a b 8)

/-- The same sum, in the form a loop over the bits has. -/
theorem gmulSum_eq_foldl (a b : Byte) (n : Nat) :
    gmulSum a b n = (List.range n).foldl (fun r i => if b.getLsbD i then r ^^^ xtime^[i] a else r) 0 := by
  induction n with
  | zero => rfl
  | succ n ih =>
    rw [List.range_succ, List.foldl_append, ← ih, List.foldl_cons, List.foldl_nil, gmulSum]
    cases b.getLsbD n <;> simp

/-! ### The laws of the multiplier (R432) -/

theorem gmulSum_xor_left (a a' b : Byte) (n : Nat) : gmulSum (a ^^^ a') b n = gmulSum a b n ^^^ gmulSum a' b n := by
  induction n with
  | zero => exact BitVec.xor_self.symm
  | succ n ih =>
    simp only [gmulSum, ih, iterate_xtime_xor]
    split
    · ac_rfl
    · simp

theorem gmulSum_xor_right (a b b' : Byte) (n : Nat) : gmulSum a (b ^^^ b') n = gmulSum a b n ^^^ gmulSum a b' n := by
  induction n with
  | zero => exact BitVec.xor_self.symm
  | succ n ih =>
    simp only [gmulSum, ih, BitVec.getLsbD_xor, ite_xor]
    ac_rfl

theorem gmul_xor_left (a a' b : Byte) : gmul (a ^^^ a') b = gmul a b ^^^ gmul a' b := by
  simp only [gmul_eq_sum, gmulSum_xor_left]

theorem gmul_xor_right (a b b' : Byte) : gmul a (b ^^^ b') = gmul a b ^^^ gmul a b' := by
  simp only [gmul_eq_sum, gmulSum_xor_right]

theorem gmul_zero (a : Byte) : gmul a 0 = 0 := by
  have h := gmul_xor_right a 0 0
  rwa [BitVec.xor_self, BitVec.xor_self] at h

theorem zero_gmul (b : Byte) : gmul 0 b = 0 := by
  have h := gmul_xor_left 0 0 b
  rwa [BitVec.xor_self, BitVec.xor_self] at h

theorem gmul_one (a : Byte) : gmul a 1 = a := by
  simp [gmul_eq_sum, gmulSum]

theorem gmul_two (a : Byte) : gmul a 2 = xtime a := by
  simp [gmul_eq_sum, gmulSum]

theorem gmul_three (a : Byte) : gmul a 3 = xtime a ^^^ a := by
  rw [show (3 : Byte) = 2 ^^^ 1 from rfl, gmul_xor_right, gmul_two, gmul_one]

theorem one_gmul (a : Byte) : gmul 1 a = a := by
  revert a
  decide +kernel

/-- What holds of 0 and of the eight doublings of 1, and of the sum of any two bytes it holds of, holds of every byte. -/
theorem byte_xor_induction {P : Byte → Prop} (zero : P 0) (xor : ∀ a b, P a → P b → P (a ^^^ b))
    (doubling : ∀ i < 8, P (xtime^[i] 1)) (a : Byte) : P a := by
  have hsum : ∀ n ≤ 8, P (gmulSum 1 a n) := by
    intro n hn
    induction n with
    | zero => exact zero
    | succ n ih =>
      refine xor _ _ (ih (by omega)) ?_
      split
      · exact doubling n (by omega)
      · exact zero
  rw [← one_gmul a, gmul_eq_sum]
  exact hsum 8 le_rfl

theorem gmul_comm_doublings : ∀ i < 8, ∀ j < 8, gmul (xtime^[i] 1) (xtime^[j] 1) = gmul (xtime^[j] 1) (xtime^[i] 1) := by
  decide +kernel

theorem gmul_comm (a b : Byte) : gmul a b = gmul b a := by
  induction a using byte_xor_induction with
  | zero => rw [zero_gmul, gmul_zero]
  | xor a a' ha ha' => rw [gmul_xor_left, gmul_xor_right, ha, ha']
  | doubling i hi =>
    induction b using byte_xor_induction with
    | zero => rw [zero_gmul, gmul_zero]
    | xor b b' hb hb' => rw [gmul_xor_left, gmul_xor_right, hb, hb']
    | doubling j hj => exact gmul_comm_doublings i hi j hj

/-- A doubling moves out of the left factor. -/
theorem gmul_xtime_left (a b : Byte) : gmul (xtime a) b = xtime (gmul a b) := by
  have hsum (n : Nat) : gmulSum (xtime a) b n = xtime (gmulSum a b n) := by
    induction n with
    | zero => exact xtime_zero.symm
    | succ n ih =>
      rw [gmulSum, gmulSum, xtime_xor, ih, apply_ite xtime, ← Function.iterate_succ_apply, Function.iterate_succ_apply', xtime_zero]
  rw [gmul_eq_sum, gmul_eq_sum, hsum]

theorem gmul_iterate_xtime (a b : Byte) (n : Nat) : gmul a (xtime^[n] b) = xtime^[n] (gmul a b) := by
  induction n with
  | zero => rfl
  | succ n ih => rw [Function.iterate_succ_apply', Function.iterate_succ_apply', gmul_comm, gmul_xtime_left, gmul_comm, ih]

theorem gmul_assoc (a b c : Byte) : gmul a (gmul b c) = gmul (gmul a b) c := by
  have hsum (n : Nat) : gmul a (gmulSum b c n) = gmulSum (gmul a b) c n := by
    induction n with
    | zero => exact gmul_zero a
    | succ n ih =>
      rw [gmulSum, gmulSum, gmul_xor_right, ih, apply_ite (gmul a), gmul_iterate_xtime, gmul_zero]
  rw [gmul_eq_sum b c, hsum, gmul_eq_sum (gmul a b) c]

/-! ### Inverses (R433) -/

/-- The inverse of a byte, from its SBOX entry by the inverse of R434's affine map. -/
def sboxInverse (a : Byte) : Byte := rotl8 (sbox a) 1 ^^^ rotl8 (sbox a) 3 ^^^ rotl8 (sbox a) 6 ^^^ 0x05

theorem gmul_sboxInverse : ∀ a : Byte, a ≠ 0 → gmul a (sboxInverse a) = 1 := by
  decide +kernel

/-- The search finds an inverse where there is one. -/
theorem gmul_ginv {a : Byte} (h : a ≠ 0) : gmul a (ginv a) = 1 := by
  unfold ginv
  cases hf : ((List.range 256).map (BitVec.ofNat 8)).find? fun x => gmul a x == 1 with
  | some x => exact beq_iff_eq.1 (List.find?_some (p := fun x => gmul a x == 1) hf)
  | none =>
    have hmem : sboxInverse a ∈ (List.range 256).map (BitVec.ofNat 8) :=
      List.mem_map.2 ⟨(sboxInverse a).toNat, List.mem_range.2 (sboxInverse a).isLt, by rw [BitVec.ofNat_toNat, BitVec.setWidth_eq]⟩
    exact absurd (beq_iff_eq.2 (gmul_sboxInverse a h)) (List.find?_eq_none.1 hf _ hmem)

/-- Inverses are unique. -/
theorem gmul_eq_one_iff {a : Byte} (h : a ≠ 0) (b : Byte) : gmul a b = 1 ↔ b = ginv a := by
  constructor
  · intro hb
    calc b = gmul (gmul a (ginv a)) b := by rw [gmul_ginv h, one_gmul]
      _ = gmul (ginv a) (gmul a b) := by rw [gmul_comm a, gmul_assoc]
      _ = ginv a := by rw [hb, gmul_one]
  · rintro rfl
    exact gmul_ginv h

/-- Nothing times 0 is 1, so the search for an inverse of 0 finds none. -/
theorem ginv_zero : ginv 0 = 0 := by
  have hnone : ((List.range 256).map (BitVec.ofNat 8)).find? (fun x => gmul 0 x == 1) = none :=
    List.find?_eq_none.2 fun x _ => by
      rw [zero_gmul]
      decide
  rw [ginv, hnone]
  rfl

theorem ginv_eq_sboxInverse (a : Byte) : ginv a = sboxInverse a := by
  by_cases h : a = 0
  · subst h
    rw [ginv_zero]
    rfl
  · exact ((gmul_eq_one_iff h _).1 (gmul_sboxInverse a h)).symm

/-- There are no divisors of 0. -/
theorem gmul_eq_zero_iff (a b : Byte) : gmul a b = 0 ↔ a = 0 ∨ b = 0 := by
  constructor
  · intro h
    refine or_iff_not_imp_left.2 fun ha => ?_
    calc b = gmul (gmul (ginv a) a) b := by rw [gmul_comm, gmul_comm (ginv a), gmul_ginv ha, gmul_one]
      _ = 0 := by rw [← gmul_assoc, h, gmul_zero]
  · rintro (rfl | rfl)
    · exact zero_gmul b
    · exact gmul_zero a

/-! ### The substitution box (R434 to R437) -/

/-- The affine map of R434. -/
def sboxAffine (b : Byte) : Byte := b ^^^ rotl8 b 1 ^^^ rotl8 b 2 ^^^ rotl8 b 3 ^^^ rotl8 b 4 ^^^ 0x63

theorem sboxAffine_sboxInverse : ∀ a : Byte, sbox a = sboxAffine (sboxInverse a) := by
  decide +kernel

theorem invSbox_sbox : ∀ a : Byte, invSbox (sbox a) = a := by
  decide +kernel

theorem sbox_invSbox : ∀ a : Byte, sbox (invSbox a) = a := by
  decide +kernel

/-- Settles O56: R430's doubling byte by byte; the laws from additivity; the inverses from the one SBOX gives. -/
theorem multiplierLaws : Obligations.MultiplierLaws := by
  intro a b c
  have hdouble : ∀ a : Byte,
      xtime a = if a.toNat < 128 then BitVec.ofNat 8 (2 * a.toNat) else BitVec.ofNat 8 (2 * a.toNat) ^^^ 0x1B := by
    decide +kernel
  exact ⟨hdouble a, (gmul_eq_sum a b).trans (gmulSum_eq_foldl a b 8), gmul_one a, gmul_two a, gmul_three a, gmul_comm a b,
    gmul_assoc a b c, gmul_xor_right a b c, gmul_eq_zero_iff a b, fun h => gmul_eq_one_iff h b, ginv_zero⟩

/-- Settles O57: the search's inverse is the one that SBOX's own entry gives, and the affine map takes it back to the entry. -/
theorem sboxDefinition : Obligations.SboxDefinition := by
  intro a
  refine ⟨?_, fun _ _ _ => rfl, invSbox_sbox a, sbox_invSbox a⟩
  rw [ginv_eq_sboxInverse]
  exact sboxAffine_sboxInverse a

end Sys2Proof
end

section
/-! PROOFS. The cipher (42_key_expansion.md, 43_round_transforms.md): the transforms by index, their inverses, the rounds, and the
key schedule. -/

namespace Sys2Proof

/-! ### The transforms by row and column (R500 to R506) -/

/-- Byte `r + 4c` of a block is its element `[r][c]` (R14). -/
theorem Block.getD_toList_cell (b : Block) (r c : Fin 4) : b.toList.getD (r + 4 * c) 0 = b.cell r c := by
  fin_cases r <;> fin_cases c <;> rfl

theorem Col.row_map (f : Byte → Byte) (a : Col) (r : Fin 4) : (a.map f).row r = f (a.row r) := by
  fin_cases r <;> rfl

theorem Block.cell_map (f : Byte → Byte) (b : Block) (r c : Fin 4) : (b.map f).cell r c = f (b.cell r c) := by
  fin_cases c <;> exact Col.row_map f _ r

theorem Col.row_xor (a b : Col) (r : Fin 4) : (a.xor b).row r = a.row r ^^^ b.row r := by
  fin_cases r <;> rfl

theorem Block.cell_xor (a b : Block) (r c : Fin 4) : (a.xor b).cell r c = a.cell r c ^^^ b.cell r c := by
  fin_cases c <;> exact Col.row_xor _ _ r

/-- One column of MixColumns, each row the first one's formula turned (R504). -/
theorem mixColumn_row (a : Col) (r : Fin 4) :
    (mixColumn a).row r = gmul (a.row r) 2 ^^^ gmul (a.row (r + 1)) 3 ^^^ a.row (r + 2) ^^^ a.row (r + 3) := by
  fin_cases r <;> simp only [mixColumn, Col.row, Fin.reduceFinMk, Fin.reduceAdd, Fin.isValue] <;> ac_rfl

/-- One column of InvMixColumns, each row the first one's formula turned (R505). -/
theorem invMixColumn_row (a : Col) (r : Fin 4) :
    (invMixColumn a).row r =
      gmul (a.row r) 0x0E ^^^ gmul (a.row (r + 1)) 0x0B ^^^ gmul (a.row (r + 2)) 0x0D ^^^ gmul (a.row (r + 3)) 0x09 := by
  fin_cases r <;> simp only [invMixColumn, Col.row, Fin.reduceFinMk, Fin.reduceAdd, Fin.isValue] <;> ac_rfl

theorem mixColumns_cell (b : Block) (r c : Fin 4) : (mixColumns b).cell r c = (mixColumn (b.col c)).row r := by
  fin_cases c <;> rfl

theorem invMixColumns_cell (b : Block) (r c : Fin 4) : (invMixColumns b).cell r c = (invMixColumn (b.col c)).row r := by
  fin_cases c <;> rfl

/-! ### Their inverses (R509) -/

/-- A map of a block's bytes is undone byte by byte. -/
theorem Block.map_map_cancel {f g : Byte → Byte} (h : ∀ a, f (g a) = a) (b : Block) : (b.map g).map f = b :=
  Block.ext_cell fun r c => by rw [Block.cell_map, Block.cell_map, h]

theorem invSubBytes_subBytes (s : Block) : invSubBytes (subBytes s) = s := s.map_map_cancel invSbox_sbox

theorem subBytes_invSubBytes (s : Block) : subBytes (invSubBytes s) = s := s.map_map_cancel sbox_invSbox

/-- The rotation of a row is undone index by index. -/
theorem invShiftRows_shiftRows (s : Block) : invShiftRows (shiftRows s) = s :=
  Block.ext_cell fun r c => by rw [invShiftRows, shiftRows, Block.cell_ofCells, Block.cell_ofCells, sub_add_cancel]

theorem shiftRows_invShiftRows (s : Block) : shiftRows (invShiftRows s) = s :=
  Block.ext_cell fun r c => by rw [invShiftRows, shiftRows, Block.cell_ofCells, Block.cell_ofCells, add_sub_cancel_right]

theorem mixColumn_xor (a b : Col) : mixColumn (a.xor b) = (mixColumn a).xor (mixColumn b) := by
  simp only [mixColumn, Col.xor, gmul_xor_left, Col.mk.injEq]
  refine ⟨?_, ?_, ?_, ?_⟩ <;> ac_rfl

theorem invMixColumn_xor (a b : Col) : invMixColumn (a.xor b) = (invMixColumn a).xor (invMixColumn b) := by
  simp only [invMixColumn, Col.xor, gmul_xor_left, Col.mk.injEq]
  refine ⟨?_, ?_, ?_, ?_⟩ <;> ac_rfl

/-- A column is the sum of its four bytes, each alone in its row. -/
theorem Col.eq_xor_rows (a : Col) :
    a = ((Col.mk a.b0 0 0 0).xor ⟨0, a.b1, 0, 0⟩).xor ((Col.mk 0 0 a.b2 0).xor ⟨0, 0, 0, a.b3⟩) := by
  simp [Col.xor]

/-- An additive map of columns that gives back each of the eight doublings of 1, alone in each row, gives back every column. -/
theorem Col.eq_self_of_additive {f : Col → Col} (additive : ∀ a b : Col, f (a.xor b) = (f a).xor (f b))
    (doublings : ∀ i < 8, ∀ r < 4, f (Col.zero.set r (xtime^[i] 1)) = Col.zero.set r (xtime^[i] 1)) (a : Col) : f a = a := by
  have hzero : f Col.zero = Col.zero := by
    have h := additive Col.zero Col.zero
    have hself (x : Col) : x.xor x = Col.zero := by simp [Col.xor, Col.zero]
    rwa [hself, hself] at h
  have hrow {r : Nat} (hr : r < 4) (v : Byte) : f (Col.zero.set r v) = Col.zero.set r v := by
    induction v using byte_xor_induction with
    | zero =>
      have hset : Col.zero.set r 0 = Col.zero := by interval_cases r <;> rfl
      rw [hset, hzero]
    | xor x y hx hy =>
      have hset : Col.zero.set r (x ^^^ y) = (Col.zero.set r x).xor (Col.zero.set r y) := by
        interval_cases r <;> simp [Col.set, Col.xor, Col.zero]
      rw [hset, additive, hx, hy]
    | doubling i hi => exact doublings i hi r hr
  rw [a.eq_xor_rows, additive, additive, additive]
  exact congrArg₂ Col.xor (congrArg₂ Col.xor (hrow (by decide : 0 < 4) a.b0) (hrow (by decide : 1 < 4) a.b1))
    (congrArg₂ Col.xor (hrow (by decide : 2 < 4) a.b2) (hrow (by decide : 3 < 4) a.b3))

theorem invMixColumn_mixColumn (a : Col) : invMixColumn (mixColumn a) = a :=
  Col.eq_self_of_additive (f := fun a => invMixColumn (mixColumn a)) (fun a b => by rw [mixColumn_xor, invMixColumn_xor])
    (by decide +kernel) a

theorem mixColumn_invMixColumn (a : Col) : mixColumn (invMixColumn a) = a :=
  Col.eq_self_of_additive (f := fun a => mixColumn (invMixColumn a)) (fun a b => by rw [invMixColumn_xor, mixColumn_xor])
    (by decide +kernel) a

theorem invMixColumns_mixColumns (s : Block) : invMixColumns (mixColumns s) = s := by
  simp only [mixColumns, invMixColumns, invMixColumn_mixColumn]

theorem mixColumns_invMixColumns (s : Block) : mixColumns (invMixColumns s) = s := by
  simp only [mixColumns, invMixColumns, mixColumn_invMixColumn]

theorem addRoundKey_addRoundKey (s k : Block) : addRoundKey (addRoundKey s k) k = s := Block.xor_xor_cancel s k

/-! ### The rounds (R507 to R509) -/

/-- An inverse round undoes a round, each being between the two halves of the other's substitution and shift. -/
theorem decRound_encRound (s k : Block) : decRound (shiftRows (subBytes (encRound s k))) k = shiftRows (subBytes s) := by
  rw [decRound, invShiftRows_shiftRows, invSubBytes_subBytes, encRound, addRoundKey_addRoundKey, invMixColumns_mixColumns]

theorem encRound_decRound (s k : Block) :
    encRound (invSubBytes (invShiftRows (decRound s k))) k = invSubBytes (invShiftRows s) := by
  rw [encRound, subBytes_invSubBytes, shiftRows_invShiftRows, decRound, mixColumns_invMixColumns, addRoundKey_addRoundKey]

theorem foldl_decRound_foldl_encRound (ks : List Block) (s : Block) :
    ks.reverse.foldl decRound (shiftRows (subBytes (ks.foldl encRound s))) = shiftRows (subBytes s) := by
  induction ks generalizing s with
  | nil => rfl
  | cons k ks ih => simp only [List.reverse_cons, List.foldl_append, List.foldl_cons, List.foldl_nil, ih, decRound_encRound]

theorem foldl_encRound_foldl_decRound (ks : List Block) (s : Block) :
    ks.foldl encRound (invSubBytes (invShiftRows (ks.reverse.foldl decRound s))) = invSubBytes (invShiftRows s) := by
  induction ks generalizing s with
  | nil => rfl
  | cons k ks ih => simp only [List.reverse_cons, List.foldl_append, List.foldl_cons, List.foldl_nil, encRound_decRound, ih]

theorem invCipher_cipher (b : Block) (rks : Schedule) : invCipher (cipher b rks) rks = b := by
  simp only [invCipher, cipher]
  rw [addRoundKey_addRoundKey, foldl_decRound_foldl_encRound, invShiftRows_shiftRows, invSubBytes_subBytes, addRoundKey_addRoundKey]

theorem cipher_invCipher (b : Block) (rks : Schedule) : cipher (invCipher b rks) rks = b := by
  simp only [invCipher, cipher]
  rw [addRoundKey_addRoundKey, foldl_encRound_foldl_decRound, subBytes_invSubBytes, shiftRows_invShiftRows, addRoundKey_addRoundKey]

/-! ### The schedule by words (R120, R473, R474) -/

/-- Round key `r` is words `4r` to `4r + 3` of the schedule. -/
theorem Schedule.block_words (rks : Schedule) (r : Fin 11) :
    (⟨rks.word ⟨4 * r, by omega⟩, rks.word ⟨4 * r + 1, by omega⟩, rks.word ⟨4 * r + 2, by omega⟩,
      rks.word ⟨4 * r + 3, by omega⟩⟩ : Block) = rks[r] := by
  fin_cases r <;> rfl

/-- The columns of a round key, from the round key before (R473). -/
theorem nextRoundKey_col (k : Block) (rc : Byte) (j : Fin 4) :
    (nextRoundKey k rc).col j = (k.col j).xor (if j = 0 then transformWord k.c3 rc else (nextRoundKey k rc).col (j - 1)) := by
  fin_cases j <;> rfl

/-- Settles O58: each transform by row and column, a byte's number being its element's. -/
theorem transformsByIndex : Obligations.TransformsByIndex := by
  intro s key at_ r hr c hc
  lift r to Fin 4 using hr
  lift c to Fin 4 using hc
  have hat (x : Block) (r c : Fin 4) : at_ x r c = x.cell r c := x.getD_toList_cell r c
  have hrow (k : Fin 4) : at_ s ((r + k) % 4) c = s.cell (r + k) c := hat s (r + k) c
  have hleft : at_ s r ((c + r) % 4) = s.cell r (c + r) := hat s r (c + r)
  have hright : at_ s r ((c + 4 - r) % 4) = s.cell r (c - r) := by
    rw [← hat, Fin.val_sub]
    congr 2
    omega
  have h1 := hrow 1
  have h2 := hrow 2
  have h3 := hrow 3
  rw [hat, hat, hat, hat, hat, hat, hat, hat, hat, hleft, hright]
  refine ⟨Block.cell_map _ _ _ _, Block.cell_map _ _ _ _, Block.cell_ofCells _ _ _, Block.cell_ofCells _ _ _, ?_, ?_,
    Block.cell_xor _ _ _ _⟩
  · rw [mixColumns_cell, mixColumn_row]
    exact congrArg₂ _ (congrArg₂ _ (congrArg₂ _ rfl (congrArg (gmul · 3) h1.symm)) h2.symm) h3.symm
  · rw [invMixColumns_cell, invMixColumn_row]
    exact congrArg₂ _ (congrArg₂ _ (congrArg₂ _ rfl (congrArg (gmul · 0x0B) h1.symm)) (congrArg (gmul · 0x0D) h2.symm))
      (congrArg (gmul · 0x09) h3.symm)

/-- Settles O55: each transform and its inverse undo each other byte by byte, row by row, or column by column. -/
theorem transformsInvert : Obligations.TransformsInvert := fun s k =>
  ⟨invSubBytes_subBytes s, subBytes_invSubBytes s, invShiftRows_shiftRows s, shiftRows_invShiftRows s,
    invMixColumns_mixColumns s, mixColumns_invMixColumns s, addRoundKey_addRoundKey s k⟩

/-- Settles O53: the round keys by words are those of the schedule, and the rounds undo each other. -/
theorem cipherRoundTrip : Obligations.CipherRoundTrip := by
  intro b rks rk
  have hrk : rk = fun r => rks[r] := funext rks.block_words
  refine ⟨?_, ?_, invCipher_cipher b rks, cipher_invCipher b rks⟩
  · rw [hrk]
    rfl
  · rw [hrk]
    rfl

/-- Settles O54: word `4(r + 1) + j` is a column of the round key after round key `r`. -/
theorem keyExpansionRecurrence : Obligations.KeyExpansionRecurrence := by
  intro key w rconValues
  have hw {n : Nat} (h : n < 44) (r : Nat) (j : Fin 4) (hn : n = 4 * r + j) : w ⟨n, h⟩ = (roundKey key r).col j := by
    have hr : n / 4 = r := by omega
    have hj : (⟨n % 4, by omega⟩ : Fin 4) = j := Fin.ext (by simp only; omega)
    rw [← hr, ← hj]
    exact keyExpansion_word key ⟨n, h⟩
  refine ⟨fun i => hw _ 0 i (by omega), fun i h h4 => ?_, fun _ _ => rfl, ⟨rfl, by decide⟩, fun _ => ⟨rfl, rfl⟩⟩
  intro q p t
  obtain ⟨r, hr⟩ : ∃ r, i / 4 = r + 1 := ⟨i / 4 - 1, by omega⟩
  obtain ⟨j, hj⟩ : ∃ j : Fin 4, i % 4 = j := ⟨⟨i % 4, by omega⟩, rfl⟩
  have hq : q = (roundKey key r).col j := hw _ r j (by omega)
  have hi : w ⟨i, h⟩ = (roundKey key (r + 1)).col j := hw _ (r + 1) j (by omega)
  have ht : t = if j = 0 then transformWord (roundKey key r).c3 (rcon (r + 1)) else (roundKey key (r + 1)).col (j - 1) := by
    by_cases h0 : j = 0
    · have hp : p = (roundKey key r).c3 := hw _ r 3 (by subst h0; simp at hj ⊢; omega)
      rw [if_pos h0]
      refine (if_pos (by rw [hj, h0]; rfl)).trans ?_
      rw [hp, hr]
      rfl
    · have hne : i % 4 ≠ 0 := fun hz => h0 (Fin.ext (hj.symm.trans hz))
      rw [if_neg h0]
      exact (if_neg hne).trans (hw _ (r + 1) (j - 1) (by rw [Fin.val_sub_one_of_ne_zero h0]; omega))
  rw [hi, hq, ht]
  exact nextRoundKey_col (roundKey key r) (rcon (r + 1)) j

end Sys2Proof
end

section
/-! PROOFS. Padding (44_padding.md): the padded message, and PAD_ENC undone by DEC_UNPAD. -/

namespace Sys2Proof

/-! ### Padded messages (R550, R551, R553) -/

/-- The padding of a message, as a number of bytes and as the byte it is made of. -/
theorem toNat_padByte (l : Nat) : (BitVec.ofNat 8 (padLen l - l)).toNat = padLen l - l := by
  have := padLen_bounds l
  rw [BitVec.toNat_ofNat, Nat.mod_eq_of_lt (by omega)]

theorem take_pad (m : List Byte) : (pad m).take m.length = m := List.take_left

theorem drop_pad (m : List Byte) : (pad m).drop m.length =
    List.replicate (padLen m.length - m.length) (BitVec.ofNat 8 (padLen m.length - m.length)) := List.drop_left

/-- The pad value of a padded message is its number of pad bytes. -/
theorem padValue_pad (m : List Byte) : padValue (pad m) = BitVec.ofNat 8 (padLen m.length - m.length) := by
  have := padLen_bounds m.length
  rw [padValue_eq_getD, length_pad, getD_pad m (by omega), if_neg (by omega)]

theorem padAccepted_pad (m : List Byte) : padAccepted (pad m) = true := by
  have := padLen_bounds m.length
  rw [padAccepted, padValue_pad, toNat_padByte, decide_eq_true_iff]
  omega

theorem unpad_pad (m : List Byte) : unpad (pad m) = m := by
  have := padLen_bounds m.length
  have hlen : padLen m.length - (padLen m.length - m.length) = m.length := by omega
  rw [unpad, length_pad, padValue_pad, toNat_padByte, hlen, take_pad]

/-- A whole number of blocks taken through nothing is as it was. -/
theorem mapBlocks_id {m : List Byte} (h : m.length % 16 = 0) : mapBlocks (fun b => b) m = m := by
  have hlen : (mapBlocks (fun b => b) m).length = m.length := by rw [length_mapBlocks]; omega
  refine List.ext_getElem hlen fun n h1 h2 => ?_
  rw [← List.getD_eq_getElem _ 0 h1, ← List.getD_eq_getElem _ 0 h2, ← getD_toList_blockAt, blockAt_mapBlocks _ _ _ (by omega),
    getD_toList_blockAt]

namespace Machine

/-! ### PAD_ENC, then DEC_UNPAD (R552, R554, R555) -/

/-- The bytes of a write, read back. -/
theorem State.bufBytes_writeBuf (s : State) (a : Nat) (bs : List Byte) : (s.writeBuf a bs).bufBytes a bs.length = bs := by
  refine List.ext_getElem (State.length_bufBytes _ _ _) fun i h1 h2 => ?_
  rw [State.getElem_bufBytes, s.bufByte_writeBuf_inside a h2, List.getD_eq_getElem _ _ h2]

/-- The ciphertext PAD_ENC writes (R552). -/
def State.ciphertext (s : State) : List Byte := mapBlocks (fun b => cipher b s.rks) (pad s.message)

/-- The state PAD_ENC ends in, where it encrypts (R552). -/
def State.afterPadEnc (s : State) : State :=
  { s.writeBuf cbufBase s.ciphertext with ctLen := BitVec.ofNat 8 (padLen s.msgLen.toNat) }.finish .ok

theorem execPadEnc_of_fits {s : State} (hk : s.rkv = true) (hl : s.msgLen.toNat ≤ 127) : execPadEnc s = .next s.afterPadEnc := by
  rcases execPadEnc_cases s with ⟨-, -, he⟩ | ⟨-, hl', -⟩ | ⟨hk', -⟩
  · exact he
  · omega
  · cases hk.symm.trans hk'

section
variable {s : State} (hl : s.msgLen.toNat ≤ 127)
include hl

theorem State.afterPadEnc_toNat_ctLen : s.afterPadEnc.ctLen.toNat = padLen s.msgLen.toNat := by
  have : padLen s.msgLen.toNat ≤ 128 := (padLen_le_maxMsg _).2 hl
  exact (BitVec.toNat_ofNat _ _).trans (Nat.mod_eq_of_lt (by omega))

theorem State.afterPadEnc_ctLenOk : s.afterPadEnc.ctLenOk = true := by
  have hfits : padLen s.msgLen.toNat ≤ 128 := (padLen_le_maxMsg _).2 hl
  have hpos := padLen_bounds s.msgLen.toNat
  rw [State.ctLenOk_iff, State.afterPadEnc_toNat_ctLen hl]
  exact ⟨by omega, padLen_mod _, hfits⟩

/-- What DEC_UNPAD then decrypts is the padded message: each block goes through the cipher and its inverse. -/
theorem State.afterPadEnc_plaintext : s.afterPadEnc.plaintext = pad s.message := by
  have hread : s.afterPadEnc.bufBytes cbufBase s.afterPadEnc.ctLen.toNat = s.ciphertext := by
    rw [State.afterPadEnc_toNat_ctLen hl, ← s.length_ciphertext]
    exact s.bufBytes_writeBuf cbufBase s.ciphertext
  have hmod : (pad s.message).length % 16 = 0 := by rw [length_pad]; exact padLen_mod _
  have hrks : s.afterPadEnc.rks = s.rks := rfl
  calc s.afterPadEnc.plaintext = mapBlocks (fun b => invCipher b s.rks) s.ciphertext := by rw [State.plaintext, hread, hrks]
    _ = mapBlocks (fun b => b) (pad s.message) := by simp only [State.ciphertext, mapBlocks_mapBlocks, invCipher_cipher]
    _ = pad s.message := mapBlocks_id hmod

/-- DEC_UNPAD then puts the message back, with its terminator. -/
theorem execDecUnpad_afterPadEnc (hk : s.rkv = true) : execDecUnpad s.afterPadEnc =
    .next ({ s.afterPadEnc.writeBuf mbufBase (s.message ++ [0]) with msgLen := BitVec.ofNat 8 s.message.length }.finish .ok) := by
  have hplain := State.afterPadEnc_plaintext hl
  rcases execDecUnpad_cases s.afterPadEnc with ⟨-, -, -, he⟩ | ⟨-, -, hp, -⟩ | ⟨-, hc, -⟩ | ⟨hk', -⟩
  · rwa [hplain, unpad_pad] at he
  · rw [hplain, padAccepted_pad] at hp
    cases hp
  · cases (State.afterPadEnc_ctLenOk hl).symm.trans hc
  · cases hk.symm.trans hk'

end

end Machine

open Sys2Proof.Machine

/-- Settles O59: R550's arithmetic, and the padded message as the message and its pad bytes. -/
theorem paddingArithmetic : Obligations.PaddingArithmetic := by
  intro m p
  obtain ⟨hlo, hhi⟩ := padLen_bounds m.length
  have hp : p = (m.length / 16 + 1) * 16 := rfl
  refine ⟨hp, padLen_mod _, by omega, by omega, by omega, padLen_le_maxMsg _, length_pad m, take_pad m, fun b hb => ?_⟩
  rw [drop_pad] at hb
  rw [List.eq_of_mem_replicate hb]
  exact toNat_padByte m.length

/-- Settles O60: the message DEC_UNPAD writes is the one PAD_ENC read. -/
theorem paddingRoundTrip : Obligations.PaddingRoundTrip := by
  intro s hk hl
  have hrun : execAll [.padEnc, .decUnpad] s = execDecUnpad s.afterPadEnc := by
    simp only [execAll, exec, execPadEnc_of_fits hk hl]
    rw [execDecUnpad_afterPadEnc hl hk]
  have hlen := s.length_message
  refine ⟨_, hrun.trans (execDecUnpad_afterPadEnc hl hk), rfl, ?msgLen, fun k hlt => ?message, ?terminator⟩
  case msgLen =>
    rw [hlen]
    exact (BitVec.ofNat_toNat _ _).trans (BitVec.setWidth_eq _)
  case message =>
    refine (State.bufByte_writeBuf_inside _ mbufBase (by simp; omega)).trans ?_
    rw [List.getD_append _ _ _ _ (by omega), State.message, s.getD_bufBytes _ hlt]
    rfl
  case terminator =>
    rw [← hlen]
    refine (State.bufByte_writeBuf_inside _ mbufBase (by simp)).trans ?_
    rw [List.getD_append_right _ _ _ _ le_rfl, Nat.sub_self, List.getD_cons_zero]

end Sys2Proof
end
